-- ==== Sys2Proof/Word.lean ====
section
/-! DEFINITION. The 32-bit word: every register, every memory cell and every instruction word is one
(spec R5, R9, R50). -/

namespace Sys2Proof

/-- A 32-bit pattern; bit 0 is the least significant (R8). Registers, cells, constants and addresses alike. -/
abbrev Word := BitVec 32

end Sys2Proof
end

