-- ==== Sys2Proof/Syntax.lean ====
section
/-! DEFINITION. The instructions of the NICE processor as syntax: conditions, operands and one constructor of
`Instr` for each row of spec/opcode_table.json. -/

namespace Sys2Proof

/-- A register number 0 .. 15; every one may stand in every operand field (R20, R76). -/
abbrev RegNo := Fin 16

/-- The eight uppermost bits of R14, which a condition can select (R25, R101). The constructor `always` is bit 24,
the "1 bit" that is always one. -/
inductive StatusBit where
  | always | x | c | z | n | v | m | i
  deriving DecidableEq, Repr

/-- The condition field, instruction bits 31:28: a status bit and whether its value is negated (R100, R102). -/
structure Cond where
  negate : Bool
  bit : StatusBit
  deriving DecidableEq, Repr

/-- The eight forms of an operand (R165 to R167). Which mode code has which form is the parameter MODE_TABLE (R167, D1,
entry 10). -/
inductive Form where
  | reg | preDec | postInc | const | mem | memPreDec | memPostInc | memConst
  deriving DecidableEq, Repr

/-- An operand: its form with its register number and, in the two forms that own one, its constant. The codes named
here are those of the spec's reconstruction of the mode table (R167, D1, entry 10). -/
inductive Operand where
  /-- mode 000, `Rxx` (R170, R180) -/
  | reg (r : RegNo)
  /-- mode 001, `--Rxx` (R171, R181) -/
  | preDec (r : RegNo)
  /-- mode 010, `Rxx++` (R172, R182) -/
  | postInc (r : RegNo)
  /-- mode 011, `#c[Rxx]` (R173); as a destination it has no meaning (R86, R183) -/
  | const (r : RegNo) (k : Word)
  /-- mode 100, `@Rxx` (R174, R184) -/
  | mem (r : RegNo)
  /-- mode 101, `@--Rxx` (R175, R185) -/
  | memPreDec (r : RegNo)
  /-- mode 110, `@Rxx++` (R176, R186) -/
  | memPostInc (r : RegNo)
  /-- mode 111, `@#c[Rxx]` (R177, R187) -/
  | memConst (r : RegNo) (k : Word)
  deriving DecidableEq, Repr

/-- The instructions, in the order of spec/opcode_table.json. An ALU instruction carries its condition, its C bit
(carry-in, bit 26), its M bit (flag update, bit 25), destination, source 0 and source 1 (R73); a shift the same
without the C bit (R74); HALT its condition and the 26 bits that have no meaning (R75). The sixteen shift encodings
are named by number, since the source's table of their mnemonics is lost (R82). -/
inductive Instr where
  | move (cond : Cond) (c m : Bool) (d s0 s1 : Operand)
  | sub (cond : Cond) (c m : Bool) (d s0 s1 : Operand)
  | mdbl (cond : Cond) (c m : Bool) (d s0 s1 : Operand)
  | add (cond : Cond) (c m : Bool) (d s0 s1 : Operand)
  | dbl (cond : Cond) (c m : Bool) (d s0 s1 : Operand)
  | dec (cond : Cond) (c m : Bool) (d s0 s1 : Operand)
  | not (cond : Cond) (c m : Bool) (d s0 s1 : Operand)
  | nor (cond : Cond) (c m : Bool) (d s0 s1 : Operand)
  | iand (cond : Cond) (c m : Bool) (d s0 s1 : Operand)
  | nand (cond : Cond) (c m : Bool) (d s0 s1 : Operand)
  | xor (cond : Cond) (c m : Bool) (d s0 s1 : Operand)
  | ior (cond : Cond) (c m : Bool) (d s0 s1 : Operand)
  | xnor (cond : Cond) (c m : Bool) (d s0 s1 : Operand)
  | and (cond : Cond) (c m : Bool) (d s0 s1 : Operand)
  | one (cond : Cond) (c m : Bool) (d s0 s1 : Operand)
  | or (cond : Cond) (c m : Bool) (d s0 s1 : Operand)
  | shift0000 (cond : Cond) (m : Bool) (d s0 s1 : Operand)
  | shift0001 (cond : Cond) (m : Bool) (d s0 s1 : Operand)
  | shift0010 (cond : Cond) (m : Bool) (d s0 s1 : Operand)
  | shift0011 (cond : Cond) (m : Bool) (d s0 s1 : Operand)
  | shift0100 (cond : Cond) (m : Bool) (d s0 s1 : Operand)
  | shift0101 (cond : Cond) (m : Bool) (d s0 s1 : Operand)
  | shift0110 (cond : Cond) (m : Bool) (d s0 s1 : Operand)
  | shift0111 (cond : Cond) (m : Bool) (d s0 s1 : Operand)
  | shift1000 (cond : Cond) (m : Bool) (d s0 s1 : Operand)
  | shift1001 (cond : Cond) (m : Bool) (d s0 s1 : Operand)
  | shift1010 (cond : Cond) (m : Bool) (d s0 s1 : Operand)
  | shift1011 (cond : Cond) (m : Bool) (d s0 s1 : Operand)
  | shift1100 (cond : Cond) (m : Bool) (d s0 s1 : Operand)
  | shift1101 (cond : Cond) (m : Bool) (d s0 s1 : Operand)
  | shift1110 (cond : Cond) (m : Bool) (d s0 s1 : Operand)
  | shift1111 (cond : Cond) (m : Bool) (d s0 s1 : Operand)
  | halt (cond : Cond) (rest : BitVec 26)
  deriving DecidableEq, Repr

/-- The condition every instruction carries (R100). -/
def Instr.cond : Instr → Cond
  | .move cond _ _ _ _ _ | .sub cond _ _ _ _ _ | .mdbl cond _ _ _ _ _ | .add cond _ _ _ _ _
  | .dbl cond _ _ _ _ _ | .dec cond _ _ _ _ _ | .not cond _ _ _ _ _ | .nor cond _ _ _ _ _
  | .iand cond _ _ _ _ _ | .nand cond _ _ _ _ _ | .xor cond _ _ _ _ _ | .ior cond _ _ _ _ _
  | .xnor cond _ _ _ _ _ | .and cond _ _ _ _ _ | .one cond _ _ _ _ _ | .or cond _ _ _ _ _
  | .shift0000 cond _ _ _ _ | .shift0001 cond _ _ _ _ | .shift0010 cond _ _ _ _ | .shift0011 cond _ _ _ _
  | .shift0100 cond _ _ _ _ | .shift0101 cond _ _ _ _ | .shift0110 cond _ _ _ _ | .shift0111 cond _ _ _ _
  | .shift1000 cond _ _ _ _ | .shift1001 cond _ _ _ _ | .shift1010 cond _ _ _ _ | .shift1011 cond _ _ _ _
  | .shift1100 cond _ _ _ _ | .shift1101 cond _ _ _ _ | .shift1110 cond _ _ _ _ | .shift1111 cond _ _ _ _
  | .halt cond _ => cond

/-- The operands destination, source 0 and source 1 of an ALU or shift instruction; HALT has none (R165). -/
def Instr.operands : Instr → Option (Operand × Operand × Operand)
  | .move _ _ _ d s0 s1 | .sub _ _ _ d s0 s1 | .mdbl _ _ _ d s0 s1 | .add _ _ _ d s0 s1
  | .dbl _ _ _ d s0 s1 | .dec _ _ _ d s0 s1 | .not _ _ _ d s0 s1 | .nor _ _ _ d s0 s1
  | .iand _ _ _ d s0 s1 | .nand _ _ _ d s0 s1 | .xor _ _ _ d s0 s1 | .ior _ _ _ d s0 s1
  | .xnor _ _ _ d s0 s1 | .and _ _ _ d s0 s1 | .one _ _ _ d s0 s1 | .or _ _ _ d s0 s1
  | .shift0000 _ _ d s0 s1 | .shift0001 _ _ d s0 s1 | .shift0010 _ _ d s0 s1 | .shift0011 _ _ d s0 s1
  | .shift0100 _ _ d s0 s1 | .shift0101 _ _ d s0 s1 | .shift0110 _ _ d s0 s1 | .shift0111 _ _ d s0 s1
  | .shift1000 _ _ d s0 s1 | .shift1001 _ _ d s0 s1 | .shift1010 _ _ d s0 s1 | .shift1011 _ _ d s0 s1
  | .shift1100 _ _ d s0 s1 | .shift1101 _ _ d s0 s1 | .shift1110 _ _ d s0 s1 | .shift1111 _ _ d s0 s1 =>
    some (d, s0, s1)
  | .halt _ _ => none

end Sys2Proof
end

