-- ==== Sys2Proof/Config.lean ====
section
/-! DEFINITION. What the source leaves to the platform (R6) as one record of plain data, and the free values: opaque
constants without a body, of which nothing can be proved. The default values stand in Machine/Params.lean. -/

namespace Sys2Proof

/-- Where the bits of a shift travel (R141). -/
inductive ShiftDir where
  | left | right
  deriving DecidableEq, Repr

/-- What enters at the free end of a shifted word (R142): a zero bit, the C bit, or some other function of the state
before the instruction. The source shows `0` and `C` only, and R145 derives that others must exist; `other k` stands
for any such function, whose bit is a free value (entry 9). -/
inductive ShiftFill where
  | zero | carry | other (k : Nat)
  deriving DecidableEq, Repr

/-- Where the bit that leaves the word goes (R142). -/
inductive ShiftSink where
  | discard | carry
  deriving DecidableEq, Repr

/-- A shift descriptor `(dir, fill, sink)` (R142). -/
structure ShiftDesc where
  dir : ShiftDir
  fill : ShiftFill
  sink : ShiftSink
  deriving DecidableEq, Repr

/-- `0<0` (R143): shift left, fill with zero, discard the bit shifted out. -/
def ShiftDesc.zeroLeftZero : ShiftDesc := ⟨.left, .zero, .discard⟩

/-- `C>C` (R144): shift right through the carry bit. -/
def ShiftDesc.carryRightCarry : ShiftDesc := ⟨.right, .carry, .carry⟩

/-- SHIFT_TABLE: for each of the sixteen shift opcodes a descriptor, or `none` for "unknown" (R145, D11). -/
abbrev ShiftTable := Vector (Option ShiftDesc) 16

/-- This opcode may be this shift: its entry is unknown, or is that descriptor (R145). -/
abbrev ShiftTable.allows (t : ShiftTable) (opcode : Fin 16) (desc : ShiftDesc) : Prop :=
  t[opcode] = none ∨ t[opcode] = some desc

/-- The limit of SHIFT_TABLE: "the two descriptors of rules R143 and R144 must appear in it, each at one opcode at
least" (R145). A table that knows all its entries has both; one with unknown entries leaves room for those it lacks,
each at an opcode of its own, so that it is part of a table that has both (`ShiftTable.wf_iff_completes`; entry 8). -/
abbrev ShiftTable.wf (t : ShiftTable) : Prop :=
  ∃ left right : Fin 16, left ≠ right ∧ t.allows left .zeroLeftZero ∧ t.allows right .carryRightCarry

/-- MODE_TABLE: the form of each of the eight mode codes, code 000 first (R167, D1). -/
abbrev ModeTable := Vector Form 8

/-- The limits of MODE_TABLE: the source's own codes 001, 110 and 111 keep their forms, and no form has two codes
(R167: "the source's table of the eight modes"; entry 10). -/
abbrev ModeTable.wf (t : ModeTable) : Prop :=
  t.toList.Nodup ∧ t[1] = .preDec ∧ t[6] = .memPostInc ∧ t[7] = .memConst

/-- IRQ: whether an interrupt request can ever arrive (R6, R206, D17, entry 21). -/
inductive Irq where
  | never | mayArrive
  deriving DecidableEq, Repr

/-- The two kinds of interrupt request (R203). -/
inductive InterruptKind where
  | maskable | nonMaskable
  deriving DecidableEq, Repr

/-- The seven parameters of R6 that a platform sets. -/
structure Config where
  /-- MEM_WORDS: cells 0 .. memWords - 1 exist (R51) -/
  memWords : Nat
  /-- ENTRY: R15 when a run starts (R38, R231) -/
  entry : Word
  /-- SHIFT_TABLE: a descriptor for each shift opcode, or `none` for "unknown" (R145) -/
  shiftTable : ShiftTable
  /-- MODE_TABLE: the meaning of the eight mode codes of an operand field (R167) -/
  modeTable : ModeTable
  /-- DISPLAY: base and length of the range mapped to the character screen, if any (R59) -/
  display : Option (Nat × Nat)
  /-- IRQ: whether an interrupt request can ever arrive (R206) -/
  irq : Irq
  /-- SUB_CARRY_IS_BORROW: the polarity of C after SUB and DEC (R113) -/
  subCarryIsBorrow : Bool
  deriving DecidableEq, Repr

/-- The limits the spec sets on the parameters: MEM_WORDS is at least 1 and at most 2^32 (R6), the display range
consists of admitted addresses (R59), and SHIFT_TABLE and MODE_TABLE agree with what the source gives of them (R145,
R167). -/
abbrev Config.wf (c : Config) : Prop :=
  1 ≤ c.memWords ∧ c.memWords ≤ 2 ^ 32 ∧ (∀ range ∈ c.display, range.1 + range.2 ≤ c.memWords) ∧
    c.shiftTable.wf ∧ c.modeTable.wf

/-- FREE VALUE (entry 9): the bit that fill number `k` takes from the registers R1 .. R15 and the memory before the
instruction (R142: "a function of the state before the instruction giving the one bit that enters"). -/
opaque Config.otherFill (k : Nat) (registers : List Word) (memory : List (Nat × Word)) : Bool

/-! The free values of an interrupt. `n` numbers the occasions on which the machine looked for a request, so that each
occasion has values of its own. -/

/-- FREE VALUE (entry 21): the request that is presented on occasion `n`, if any. The source names no interrupt source
(R205) and does not say whether a request that is not accepted is held or dropped (R37). -/
opaque Config.requestAt (n : Nat) : Option InterruptKind

/-- FREE VALUE (entry 22): whether the I bit, where it is set, keeps a request of this kind from being accepted on
occasion `n` (R202: "Whether I = 1 blocks further interrupts is not in the source"; R209). -/
opaque Config.blockedByI (n : Nat) (kind : InterruptKind) : Bool

/-- FREE VALUE (entry 22): the addresses interrupt entry reads, if it reads the structure at R14[23:0] at all (R204). -/
opaque Config.interruptReads (n : Nat) (structureAddress : BitVec 24) (memory : List (Nat × Word)) : List Word

/-- FREE VALUE (entry 22): the address an interrupt passes control to, "derived from the memory structure at address
R14[23:0]" in a way that is not in the source (R204, R208). -/
opaque Config.interruptTarget (n : Nat) (structureAddress : BitVec 24) (memory : List (Nat × Word)) : Word

/-- FREE VALUE (entry 22): the M bit after interrupt entry, from R14 before it (R203: "Whether the hardware changes M on
entry is not in the source"). -/
opaque Config.maskAfterInterrupt (n : Nat) (statusRegister : Word) : Bool

end Sys2Proof
end

