-- ==== Sys2Proof/WellFormed.lean ====
section
/-! DEFINITION. Which instructions the spec gives a full meaning: the two places where it says of an operand or of
bits that they have none. Every other shape condition (register numbers, fields, which operand owns a constant) is
built into the types of Syntax. Decoding and execution do not depend on this predicate: no word is illegal (R84). -/

namespace Sys2Proof

/-- The operand names a place: every mode but 011, "a value and not a place" (R86). -/
def Operand.isPlace : Operand → Bool
  | .const _ _ => false
  | .reg _ | .preDec _ | .postInc _ | .mem _ | .memPreDec _ | .memPostInc _ | .memConst _ _ => true

/-- The destination of an ALU or shift instruction is a place (R86). -/
def Instr.destinationIsPlace (i : Instr) : Bool :=
  match i.operands with
  | some (d, _, _) => d.isPlace
  | none => true

/-- The bits of HALT that "have no meaning and should be zero" are zero (R75, R161). -/
def Instr.meaninglessBitsZero : Instr → Bool
  | .halt _ rest => rest == 0
  | _ => true

/-- An instruction as the assembler writes it and as the spec gives it a meaning. -/
def Instr.wellFormed (i : Instr) : Bool := i.destinationIsPlace && i.meaninglessBitsZero

end Sys2Proof
end

