-- ==== Sys2Proof/Decode.lean ====
section
/-! DEFINITION. Decoding and encoding (spec 30_encoding.md). The decoder reads a list of 32-bit words, the instruction
word first, and answers the instruction with the words that follow it. No instruction word is illegal (R84); what is
rejected is a list that ends before the instruction does. The encoder is written from the same formats. Both take the
parameter MODE_TABLE, which says what the mode codes of an operand field mean (R167). -/

namespace Sys2Proof

/-- Why a list of words is no instruction: it is empty, or it ends before a constant the instruction word owns. -/
inductive DecodeReject where
  | noInstructionWord
  | missingConstant
  deriving DecidableEq, Repr

/-- The status bit of a select code: the code counts up from bit 24 (R101). -/
def StatusBit.ofCode (code : BitVec 3) : StatusBit :=
  match code.toNat with
  | 0 => .always
  | 1 => .x
  | 2 => .c
  | 3 => .z
  | 4 => .n
  | 5 => .v
  | 6 => .m
  | _ => .i

/-- The select code of a status bit (R101). -/
def StatusBit.code : StatusBit → BitVec 3
  | .always => 0
  | .x => 1
  | .c => 2
  | .z => 3
  | .n => 4
  | .v => 5
  | .m => 6
  | .i => 7

/-- The bit of R14 a status bit stands in: 24 plus its select code (R25, R100). -/
def StatusBit.pos (b : StatusBit) : Nat := 24 + b.code.toNat

/-- The condition field: bit 31 negates, bits 30:28 select (R100). -/
def Cond.ofField (f : BitVec 4) : Cond :=
  ⟨f[3], StatusBit.ofCode (f.extractLsb' 0 3)⟩

/-- The four bits of a condition (R102). -/
def Cond.field (c : Cond) : BitVec 4 := BitVec.ofBool c.negate ++ c.bit.code

/-- MODE_TABLE at the spec's default: bit 2 of the code is `@`, bits 1:0 are 00 plain, 01 pre-decrement, 10
post-increment, 11 constant plus register (R167, D1, entry 10). -/
def ModeTable.reconstruction : ModeTable :=
  #v[.reg, .preDec, .postInc, .const, .mem, .memPreDec, .memPostInc, .memConst]

/-- The form a mode code has (R167). -/
def ModeTable.form (t : ModeTable) (code : BitVec 3) : Form := t[code.toFin]

/-- The mode code of a form, the first one if the table gives it several (R167). -/
def ModeTable.code (t : ModeTable) (f : Form) : BitVec 3 := BitVec.ofNat 3 (t.toList.idxOf f)

/-- The forms that own a constant, the two with `#c` (R77, R167). -/
def Form.ownsConstant : Form → Bool
  | .const | .memConst => true
  | .reg | .preDec | .postInc | .mem | .memPreDec | .memPostInc => false

/-- An operand from its 7-bit field and the constants not yet taken: mode in the upper three bits, register number in
the lower four (R76); the two `#c` forms, modes 011 and 111, take the next constant (R77). -/
def operandOfField (t : ModeTable) (f : BitVec 7) (constants : List Word) :
    Except DecodeReject (Operand × List Word) :=
  let r : RegNo := (f.extractLsb' 0 4).toFin
  match t.form (f.extractLsb' 4 3), constants with
  | .reg, ks => .ok (.reg r, ks)
  | .preDec, ks => .ok (.preDec r, ks)
  | .postInc, ks => .ok (.postInc r, ks)
  | .const, k :: ks => .ok (.const r k, ks)
  | .const, [] => .error .missingConstant
  | .mem, ks => .ok (.mem r, ks)
  | .memPreDec, ks => .ok (.memPreDec r, ks)
  | .memPostInc, ks => .ok (.memPostInc r, ks)
  | .memConst, k :: ks => .ok (.memConst r k, ks)
  | .memConst, [] => .error .missingConstant

/-- The form of an operand (R167). -/
def Operand.form : Operand → Form
  | .reg _ => .reg
  | .preDec _ => .preDec
  | .postInc _ => .postInc
  | .const _ _ => .const
  | .mem _ => .mem
  | .memPreDec _ => .memPreDec
  | .memPostInc _ => .memPostInc
  | .memConst _ _ => .memConst

/-- The register an operand names (R76). -/
def Operand.register : Operand → RegNo
  | .reg r | .preDec r | .postInc r | .const r _ | .mem r | .memPreDec r | .memPostInc r | .memConst r _ => r

/-- The constants an operand owns: one in the two `#c` forms, else none (R77). -/
def Operand.constants : Operand → List Word
  | .const _ k | .memConst _ k => [k]
  | .reg _ | .preDec _ | .postInc _ | .mem _ | .memPreDec _ | .memPostInc _ => []

/-- The 7-bit field of an operand (R76). -/
def Operand.field (t : ModeTable) (o : Operand) : BitVec 7 := t.code o.form ++ BitVec.ofFin (w := 4) o.register

/-- The ALU instruction of an opcode, instruction bits 24:21 (R81). -/
def aluInstr (opcode : BitVec 4) (cond : Cond) (c m : Bool) (d s0 s1 : Operand) : Instr :=
  match opcode.toNat with
  | 0 => .move cond c m d s0 s1
  | 1 => .sub cond c m d s0 s1
  | 2 => .mdbl cond c m d s0 s1
  | 3 => .add cond c m d s0 s1
  | 4 => .dbl cond c m d s0 s1
  | 5 => .dec cond c m d s0 s1
  | 6 => .not cond c m d s0 s1
  | 7 => .nor cond c m d s0 s1
  | 8 => .iand cond c m d s0 s1
  | 9 => .nand cond c m d s0 s1
  | 10 => .xor cond c m d s0 s1
  | 11 => .ior cond c m d s0 s1
  | 12 => .xnor cond c m d s0 s1
  | 13 => .and cond c m d s0 s1
  | 14 => .one cond c m d s0 s1
  | _ => .or cond c m d s0 s1

/-- The shift instruction of a shift opcode, instruction bits 24:21 (R82). -/
def shiftInstr (opcode : BitVec 4) (cond : Cond) (m : Bool) (d s0 s1 : Operand) : Instr :=
  match opcode.toNat with
  | 0 => .shift0000 cond m d s0 s1
  | 1 => .shift0001 cond m d s0 s1
  | 2 => .shift0010 cond m d s0 s1
  | 3 => .shift0011 cond m d s0 s1
  | 4 => .shift0100 cond m d s0 s1
  | 5 => .shift0101 cond m d s0 s1
  | 6 => .shift0110 cond m d s0 s1
  | 7 => .shift0111 cond m d s0 s1
  | 8 => .shift1000 cond m d s0 s1
  | 9 => .shift1001 cond m d s0 s1
  | 10 => .shift1010 cond m d s0 s1
  | 11 => .shift1011 cond m d s0 s1
  | 12 => .shift1100 cond m d s0 s1
  | 13 => .shift1101 cond m d s0 s1
  | 14 => .shift1110 cond m d s0 s1
  | _ => .shift1111 cond m d s0 s1

/-- The decoder: group by bits 27:26 (R72), fields by R73 to R76, constants in the order destination, source 0,
source 1 (R78, D3, entry 12). A HALT owns no constant (R161). -/
def decode (t : ModeTable) : List Word → Except DecodeReject (Instr × List Word)
  | [] => .error .noInstructionWord
  | w :: ks =>
    let cond := Cond.ofField (w.extractLsb' 28 4)
    if w[27] && w[26] then .ok (.halt cond (w.extractLsb' 0 26), ks)
    else
      match operandOfField t (w.extractLsb' 14 7) ks with
      | .error e => .error e
      | .ok (d, ks) =>
        match operandOfField t (w.extractLsb' 7 7) ks with
        | .error e => .error e
        | .ok (s0, ks) =>
          match operandOfField t (w.extractLsb' 0 7) ks with
          | .error e => .error e
          | .ok (s1, ks) =>
            let opcode := w.extractLsb' 21 4
            if w[27] then .ok (shiftInstr opcode cond w[25] d s0 s1, ks)
            else .ok (aluInstr opcode cond w[26] w[25] d s0 s1, ks)

/-- How many constants a field with this mode code owns (R77). -/
def ModeTable.constantsOf (t : ModeTable) (code : BitVec 3) : Nat := if (t.form code).ownsConstant then 1 else 0

/-- How many constants follow an instruction word: none after a HALT, else what its three fields own (R77, R161). -/
def constantCount (t : ModeTable) (w : Word) : Nat :=
  if w[27] && w[26] then 0
  else t.constantsOf (w.extractLsb' 18 3) + t.constantsOf (w.extractLsb' 11 3) + t.constantsOf (w.extractLsb' 4 3)

/-- The constants of three operands, in the order they stand in memory (R78). -/
def operandConstants (d s0 s1 : Operand) : List Word := d.constants ++ s0.constants ++ s1.constants

/-- How many cells an instruction with these operands takes (R70). -/
def operandWords (d s0 s1 : Operand) : Nat := 1 + (operandConstants d s0 s1).length

/-- How many cells an instruction takes (R70, R161). -/
def Instr.length (i : Instr) : Nat :=
  match i.operands with
  | some (d, s0, s1) => operandWords d s0 s1
  | none => 1

/-- The word of an ALU instruction (R73). -/
def aluWord (t : ModeTable) (opcode : BitVec 4) (cond : Cond) (c m : Bool) (d s0 s1 : Operand) : Word :=
  cond.field ++ 0#1 ++ BitVec.ofBool c ++ BitVec.ofBool m ++ opcode ++ d.field t ++ s0.field t ++ s1.field t

/-- The word of a shift instruction (R74). -/
def shiftWord (t : ModeTable) (opcode : BitVec 4) (cond : Cond) (m : Bool) (d s0 s1 : Operand) : Word :=
  cond.field ++ 2#2 ++ BitVec.ofBool m ++ opcode ++ d.field t ++ s0.field t ++ s1.field t

/-- The word of a HALT (R75, R83). -/
def haltWord (cond : Cond) (rest : BitVec 26) : Word := cond.field ++ 3#2 ++ rest

/-- The instruction word of an instruction. -/
def Instr.word (t : ModeTable) : Instr → Word
  | .move cond c m d s0 s1 => aluWord t 0 cond c m d s0 s1
  | .sub cond c m d s0 s1 => aluWord t 1 cond c m d s0 s1
  | .mdbl cond c m d s0 s1 => aluWord t 2 cond c m d s0 s1
  | .add cond c m d s0 s1 => aluWord t 3 cond c m d s0 s1
  | .dbl cond c m d s0 s1 => aluWord t 4 cond c m d s0 s1
  | .dec cond c m d s0 s1 => aluWord t 5 cond c m d s0 s1
  | .not cond c m d s0 s1 => aluWord t 6 cond c m d s0 s1
  | .nor cond c m d s0 s1 => aluWord t 7 cond c m d s0 s1
  | .iand cond c m d s0 s1 => aluWord t 8 cond c m d s0 s1
  | .nand cond c m d s0 s1 => aluWord t 9 cond c m d s0 s1
  | .xor cond c m d s0 s1 => aluWord t 10 cond c m d s0 s1
  | .ior cond c m d s0 s1 => aluWord t 11 cond c m d s0 s1
  | .xnor cond c m d s0 s1 => aluWord t 12 cond c m d s0 s1
  | .and cond c m d s0 s1 => aluWord t 13 cond c m d s0 s1
  | .one cond c m d s0 s1 => aluWord t 14 cond c m d s0 s1
  | .or cond c m d s0 s1 => aluWord t 15 cond c m d s0 s1
  | .shift0000 cond m d s0 s1 => shiftWord t 0 cond m d s0 s1
  | .shift0001 cond m d s0 s1 => shiftWord t 1 cond m d s0 s1
  | .shift0010 cond m d s0 s1 => shiftWord t 2 cond m d s0 s1
  | .shift0011 cond m d s0 s1 => shiftWord t 3 cond m d s0 s1
  | .shift0100 cond m d s0 s1 => shiftWord t 4 cond m d s0 s1
  | .shift0101 cond m d s0 s1 => shiftWord t 5 cond m d s0 s1
  | .shift0110 cond m d s0 s1 => shiftWord t 6 cond m d s0 s1
  | .shift0111 cond m d s0 s1 => shiftWord t 7 cond m d s0 s1
  | .shift1000 cond m d s0 s1 => shiftWord t 8 cond m d s0 s1
  | .shift1001 cond m d s0 s1 => shiftWord t 9 cond m d s0 s1
  | .shift1010 cond m d s0 s1 => shiftWord t 10 cond m d s0 s1
  | .shift1011 cond m d s0 s1 => shiftWord t 11 cond m d s0 s1
  | .shift1100 cond m d s0 s1 => shiftWord t 12 cond m d s0 s1
  | .shift1101 cond m d s0 s1 => shiftWord t 13 cond m d s0 s1
  | .shift1110 cond m d s0 s1 => shiftWord t 14 cond m d s0 s1
  | .shift1111 cond m d s0 s1 => shiftWord t 15 cond m d s0 s1
  | .halt cond rest => haltWord cond rest

/-- The constants of an instruction in the order they stand after its word (R78). -/
def Instr.constants (i : Instr) : List Word :=
  match i.operands with
  | some (d, s0, s1) => operandConstants d s0 s1
  | none => []

/-- The encoder: the instruction word and then its constants (R70). -/
def encode (t : ModeTable) (i : Instr) : List Word := i.word t :: i.constants

/-- The four words of an instruction given as one number, the first word in its low 32 bits; the bits from `nbits` on
are zero. Memory holds whole words, so no byte order enters (R55, entry 1). -/
def tableWords (nbits w : Nat) : List Word :=
  let v := w % 2 ^ nbits
  [BitVec.ofNat 32 v, BitVec.ofNat 32 (v / 2 ^ 32), BitVec.ofNat 32 (v / 2 ^ 64), BitVec.ofNat 32 (v / 2 ^ 96)]

/-- The instruction the decoder reads from the bits of an opcode-table row, MODE_TABLE at its default. -/
def decodeTableWord (nbits w : Nat) : Option Instr :=
  match decode .reconstruction (tableWords nbits w) with
  | .ok (i, _) => some i
  | .error _ => none

end Sys2Proof
end

