-- ==== Sys2Proof/Machine/Params.lean ====
section
/-! DEFINITION. The values the parameters of R6 have at reset: the spec's defaults, and for MEM_WORDS, which has none,
a choice of the model (entry 3). -/

namespace Sys2Proof.Machine

/-- The parameters at reset. All but one are the spec's defaults (R6: D16, D11, D1, D21, D17, D8). `memWords` is a DESIGN CHOICE, entry 3: the whole space a 32-bit address names, the largest R6 admits. -/
def defaultConfig : Config where
  memWords := 2 ^ 32
  entry := 0
  shiftTable := Vector.replicate 16 none
  modeTable := .reconstruction
  display := none
  irq := .never
  subCarryIsBorrow := true

end Sys2Proof.Machine
end

