-- ==== Sys2Proof/Machine/State.lean ====
section
/-! DEFINITION. The state of the machine as plain data, why a step can stop, and the state after reset
(spec 10_state.md). -/

namespace Sys2Proof.Machine

/-- Memory: the cells that hold something else than an unlisted cell reads as, as (address, word) pairs with strictly
rising addresses. The smallest unit the spec gives an address is a 32-bit cell (R50, R55; entry 1). -/
abbrev Memory := List (Nat × Word)

/-- The state (R7): the registers R1 to R15, memory and `halted`; R0 is not state. `cfg`, `screen` and `polls` are the
model's own fields (entries 2, 23 and 21). -/
structure State where
  /-- R1 at index 0 to R15 at index 14 (R20); read and written through `State.reg` and `State.writeReg` alone -/
  regs : Vector Word 15
  /-- main memory (R35, R50) -/
  mem : Memory
  /-- true after an executed HALT (R36) -/
  halted : Bool
  /-- the (address, word) pairs written to display cells, newest first: output of the machine (R59) -/
  screen : List (Nat × Word)
  /-- the platform's parameters (R6); no step changes them -/
  cfg : Config
  /-- on how many occasions the machine has looked for an interrupt request, which only a platform with IRQ other than
  `never` does: what numbers the free values of an interrupt (entry 21) -/
  polls : Nat
  deriving DecidableEq, Repr

/-- What stops the machine without a next state. -/
inductive Fault where
  /-- An access, fetch included, to an address at or above MEM_WORDS: "no step (stuck)" (R51, D13, entry 7). Raised by
  `load`, `store` and `State.takeInterrupt`. Safe: it stops where a real machine might go on. -/
  | notAdmitted (address : Word)
  deriving DecidableEq, Repr

/-- What the model gives no meaning. -/
inductive Refusal where
  /-- An instruction whose arm of `exec` has no meaning yet. Raised by exec's refused arms only. Safe. -/
  | notModelled (mnemonic : String)
  /-- An executed instruction whose destination is in mode 011: the spec's `refuse(dest_mode_011)` (R86, R183, D2,
  entry 11). Raised by `onPlace`. Safe. -/
  | destMode011
  /-- An executed shift whose SHIFT_TABLE entry is "unknown": the spec's `refuse(shift_opcode_unknown)` (R145, D11,
  entry 8). Raised by `execShift`. Safe. -/
  | shiftOpcodeUnknown (opcode : BitVec 4)
  /-- The words fetched are fewer than the decoder asks for. Raised by `fetch`, and never: `constantCount`
  constants are always enough (theorem `decode_constantCount`, entry 33). Safe. -/
  | undecodable
  deriving DecidableEq, Repr

/-- The outcome of a part of a step that answers an `α`. -/
abbrev Result (α : Type) := Host.Outcome α Fault Refusal

/-- The state in which a run starts on a platform with parameters `c` (R38, R230): R15 = ENTRY, bit 24 of R14 one,
`halted` false, no cell listed. DESIGN CHOICE, entry 4: R1 to R13 and the other bits of R14, which R38 leaves
unspecified, are zero. -/
def State.start (c : Config) : State where
  regs := #v[0, 0, 0, 0, 0, 0, 0, 0, 0, 0, 0, 0, 0, 0x01000000#32, c.entry]
  mem := []
  halted := false
  screen := []
  cfg := c
  polls := 0

/-- The machine right after reset: the start state with the default parameters. -/
def State.reset : State := State.start defaultConfig

end Sys2Proof.Machine
end

