-- ==== Sys2Proof/Machine/Ops.lean ====
section
/-! DEFINITION. The named operations over memory and registers (spec 10_state.md, 20_memory.md), the condition test,
and interrupt entry and return as far as the spec gives them (60_exceptions.md). -/

namespace Sys2Proof.Machine

/-- Run `f` on what `x` answers; a stop stays a stop. -/
def andThen {α β : Type} (x : Result α) (f : α → Result β) : Result β :=
  match x with
  | .next a => f a
  | .fault e => .fault e
  | .refused r => .refused r

/-! ### Memory -/

/-- What a cell that nothing has written reads as. DESIGN CHOICE, entry 6: zero; R38 leaves it unspecified. -/
def Memory.unlisted : Word := 0

/-- The content of a cell (R53). -/
def Memory.read : Memory → Nat → Word
  | [], _ => Memory.unlisted
  | (b, w) :: rest, a => if a = b then w else Memory.read rest a

/-- List a cell in front of `rest`, unless its word is what an unlisted cell reads as. -/
def Memory.cell (a : Nat) (v : Word) (rest : Memory) : Memory :=
  if v = Memory.unlisted then rest else (a, v) :: rest

/-- Memory with one cell written (R54), in canonical form. -/
def Memory.write : Memory → Nat → Word → Memory
  | [], a, v => Memory.cell a v []
  | (b, w) :: rest, a, v =>
    if a < b then Memory.cell a v ((b, w) :: rest)
    else if a = b then Memory.cell a v rest
    else (b, w) :: Memory.write rest a v

/-- The canonical form: addresses strictly rising, and no cell listed that reads as an unlisted one does. -/
abbrev Memory.wf (m : Memory) : Prop :=
  m.Pairwise (fun p q => p.1 < q.1) ∧ ∀ p ∈ m, p.2 ≠ Memory.unlisted

/-! ### Registers -/

/-- Bit 24 of R14, the hardwired one (R27). -/
def alwaysOne : Word := 0x01000000

/-- Read a register (R21): R0 is zero, R14 has bit 24 set, whatever is stored. -/
def State.reg (s : State) (i : RegNo) : Word :=
  if h : i.val = 0 then 0
  else if i.val = 14 then s.regs[i.val - 1] ||| alwaysOne
  else s.regs[i.val - 1]

/-- The stored registers after a write (R22): nothing for R0; bit 24 of R14 stays one (D9, entry 18). -/
def writtenRegs (regs : Vector Word 15) (i : RegNo) (v : Word) : Vector Word 15 :=
  if h : i.val = 0 then regs
  else regs.set (i.val - 1) (if i.val = 14 then v ||| alwaysOne else v)

/-- Write a register, the one write path of R22. -/
def State.writeReg (s : State) (i : RegNo) (v : Word) : State :=
  { s with regs := writtenRegs s.regs i v }

/-- The value of a status bit of R14 (R25). -/
def State.flag (s : State) (b : StatusBit) : Bool := (s.reg 14).getLsbD b.pos

/-- Move R15 past `n` cells, as fetching them does, wrapping at 2^32 (R31, D19, entry 27). -/
def State.advance (s : State) (n : Nat) : State := s.writeReg 15 (s.reg 15 + BitVec.ofNat 32 n)

/-! ### Memory accesses of the machine -/

/-- The address names an existing cell: below MEM_WORDS, the whole 32-bit value counting (R51, D13). -/
def State.admitted (s : State) (a : Word) : Bool := decide (a.toNat < s.cfg.memWords)

/-- The content of the cell an address names (R53). -/
def State.cell (s : State) (a : Word) : Word := s.mem.read a.toNat

/-- The cell lies in the range mapped to the character screen (R59, D21, entry 23). -/
def displayed (c : Config) (cell : Nat) : Bool :=
  match c.display with
  | none => false
  | some (base, len) => decide (base ≤ cell ∧ cell < base + len)

/-- The screen after a word is written to a cell (R54, R59). -/
def State.screenAfter (s : State) (a : Word) (v : Word) : List (Nat × Word) :=
  if displayed s.cfg a.toNat then (a.toNat, v) :: s.screen else s.screen

/-- The state with a cell written, and shown if it is a display cell (R54). -/
def State.writeCell (s : State) (a : Word) (v : Word) : State :=
  { s with mem := s.mem.write a.toNat v, screen := s.screenAfter a v }

/-- `MemRead(a, 1)` (R53); stuck where the address is not admitted (R51, entry 7). -/
def load (a : Word) (s : State) : Result Word :=
  if s.admitted a then .next (s.cell a) else .fault (.notAdmitted a)

/-- `MemWrite(a, 1, v)` (R54); stuck where the address is not admitted (R51, entry 7). -/
def store (a : Word) (v : Word) (s : State) : Result State :=
  if s.admitted a then .next (s.writeCell a v) else .fault (.notAdmitted a)

/-! ### Conditional execution -/

/-- The condition test: the selected bit of R14, negated if bit 31 of the instruction says so (R100). -/
def State.meets (s : State) (c : Cond) : Bool := s.flag c.bit ^^ c.negate

/-- An instruction of `n` cells: R15 moves past them; `body` runs if the condition holds on the state before the
instruction (R103), and nothing else happens if it does not (R104, D6, entry 15). -/
def conditionally (c : Cond) (n : Nat) (body : State → Result State) (s : State) : Result State :=
  if s.meets c then body (s.advance n) else .next (s.advance n)

/-- Set `halted` (R160). -/
def State.halt (s : State) : State := { s with halted := true }

/-! ### Interrupts, as far as the source gives them

With IRQ at its default `never` no request is presented, and R14's bits I and M are plain storage (R206, D17, entry 21).
On a platform with another IRQ an interrupt is taken between two instructions (R208), by `State.takeInterrupt`. -/

/-- The request presented to the machine before its next instruction: none with IRQ `never` (R206), else a FREE VALUE
(entry 21). -/
def State.request (s : State) : Option InterruptKind :=
  match s.cfg.irq with
  | .never => none
  | .mayArrive => Config.requestAt s.polls

/-- The state after the machine has looked for a request (entry 21). -/
def State.polled (s : State) : State :=
  match s.cfg.irq with
  | .never => s
  | .mayArrive => { s with polls := s.polls + 1 }

/-- Whether a request is accepted: a maskable one only while the M bit of R14 is set (R203). Whether the I bit, where it
is set, blocks a request is a FREE VALUE (R202, R209, entry 22). DESIGN CHOICE, entry 21: nothing else blocks one. -/
def State.acceptsInterrupt (s : State) (kind : InterruptKind) : Bool :=
  (kind == .nonMaskable || s.flag .m) && !(s.flag .i && Config.blockedByI s.polls kind)

/-- R14 after interrupt entry: I is set (R202), M is a FREE VALUE (R203, entry 22). DESIGN CHOICE, entry 21: the other
bits are as before. -/
def interruptStatus (n : Nat) (w : Word) : Word :=
  ((w &&& 0xBFFFFFFF) ||| 0x80000000) ||| (if Config.maskAfterInterrupt n w then 0x40000000 else 0)

/-- Interrupt entry (R201, R202, R204, R208): R13 takes the program counter, the I bit of R14 is set, and R15 takes a
FREE VALUE derived from the structure at R14[23:0]; no other register and no memory changes. Whether entry reads that
structure is open, so the addresses it reads are a FREE VALUE too, and where one of them does not exist entry is stuck
(R51, entry 22). -/
def State.takeInterrupt (s : State) : Result State :=
  let structureAddress := (s.reg 14).extractLsb' 0 24
  match (Config.interruptReads s.polls structureAddress s.mem).find? fun a => !s.admitted a with
  | some a => .fault (.notAdmitted a)
  | none =>
    .next (((s.writeReg 13 (s.reg 15)).writeReg 14 (interruptStatus s.polls (s.reg 14))).writeReg 15
      (Config.interruptTarget s.polls structureAddress s.mem))

/-- Return from an interrupt routine: R15 takes R13, what `MOVE R15, R13` does; nothing is restored (R209). -/
def State.returnFromInterrupt (s : State) : State := s.writeReg 15 (s.reg 13)

end Sys2Proof.Machine
end

