-- ==== Sys2Proof/Machine/Flags.lean ====
section
/-! DEFINITION. The flags: carry-in, the carry and overflow law, and the updates of the status bits
(spec 41_alu.md R111 to R114, 42_shift.md R146). -/

namespace Sys2Proof.Machine

/-- A word with one bit replaced. -/
def setBit (w : Word) (n : Nat) (b : Bool) : Word :=
  if b then w ||| (1#32 <<< n) else w &&& ~~~(1#32 <<< n)

/-- The state with one status bit of R14 replaced. -/
def State.setFlag (s : State) (f : StatusBit) (b : Bool) : State := s.writeReg 14 (setBit (s.reg 14) f.pos b)

/-- What an ALU operation answers: the 32-bit result and the bits C' and V'. -/
structure AluOut where
  result : Word
  carry : Bool
  overflow : Bool
  deriving DecidableEq, Repr

/-- The law of R110 and R113 (D8, entry 17): from the exact integers `e`, computed on unsigned readings, and `g`, the
same on signed readings, the result is `e` modulo 2^32, C' says that `e` does not fit in 0 .. 2^32-1 and V' that `g`
does not fit in -2^31 .. 2^31-1. -/
def exactOut (e g : Int) : AluOut where
  result := BitVec.ofInt 32 e
  carry := decide (e < 0 ∨ 0xFFFFFFFF < e)
  overflow := decide (g < -0x80000000 ∨ 0x7FFFFFFF < g)

/-- The carry-in of an ALU instruction: the C bit of R14 before the instruction if instruction bit 26 is set
(R111, D7, entry 16). -/
def carryIn (c : Bool) (s : State) : Int := if c && s.flag .c then 1 else 0

/-- N, Z and X describe the result as computed (R112). -/
def State.setResultFlags (s : State) (result : Word) : State :=
  ((s.setFlag .n result.msb).setFlag .z (result == 0)).setFlag .x (result == 0xFFFFFFFF)

/-- The flag write of an ALU instruction, if its M bit is set: bits 29:25 of R14 and nothing else (R114). -/
def State.aluFlags (s : State) (m : Bool) (out : AluOut) : State :=
  if m then ((s.setResultFlags out.result).setFlag .c out.carry).setFlag .v out.overflow else s

/-- The status bits after a shift (R146, D10, entry 19): C takes the bit shifted out if the sink is the carry,
whatever the M bit; with M set, N, Z and X describe the result and V is cleared. -/
def State.shiftFlags (s : State) (m : Bool) (sink : ShiftSink) (result : Word) (out : Bool) : State :=
  let s' := match sink with
    | .carry => s.setFlag .c out
    | .discard => s
  if m then (s'.setResultFlags result).setFlag .v false else s'

end Sys2Proof.Machine
end

