-- ==== Sys2Proof/Machine/Operands.lean ====
section
/-! DEFINITION. The eight addressing modes as source and as destination (spec 44_operands.md). Each operand acts in
the order pre-decrement, address, access, post-increment (R168). -/

namespace Sys2Proof.Machine

/-- The state after an operand's pre-decrement, through the register write of R22 (R169). -/
def preDecrement (o : Operand) (s : State) : State :=
  match o with
  | .preDec r | .memPreDec r => s.writeReg r (s.reg r - 1)
  | .reg _ | .postInc _ | .const _ _ | .mem _ | .memPostInc _ | .memConst _ _ => s

/-- The state after an operand's post-increment, through the register write of R22 (R169). -/
def postIncrement (o : Operand) (s : State) : State :=
  match o with
  | .postInc r | .memPostInc r => s.writeReg r (s.reg r + 1)
  | .reg _ | .preDec _ | .const _ _ | .mem _ | .memPreDec _ | .memConst _ _ => s

/-- The address of the cell an operand names, in the state after its pre-decrement; none for the modes that do not go
through memory (R167). -/
def operandAddress (o : Operand) (s : State) : Option Word :=
  match o with
  | .mem r | .memPreDec r | .memPostInc r => some (s.reg r)
  | .memConst r k => some (k + s.reg r)
  | .reg _ | .preDec _ | .postInc _ | .const _ _ => none

/-- The value of an operand that does not go through memory: the register, or constant plus register
(R170 to R173). -/
def plainValue (o : Operand) (s : State) : Word :=
  match o with
  | .const r k => k + s.reg r
  | .reg r | .preDec r | .postInc r | .mem r | .memPreDec r | .memPostInc r | .memConst r _ => s.reg r

/-- A source operand: its value and the state with its side effect (R170 to R177). -/
def readSource (o : Operand) (s : State) : Result (Word × State) :=
  let t := preDecrement o s
  match operandAddress o t with
  | none => .next (plainValue o t, postIncrement o t)
  | some a => andThen (load a t) fun v => .next (v, postIncrement o t)

/-- Run `body` if the destination is a place; mode 011 is refused (R86, R183, D2, entry 11). -/
def onPlace (d : Operand) (body : Result State) : Result State :=
  if d.isPlace then body else .refused .destMode011

/-- A destination operand: the state with the result written and its side effect (R180 to R187). -/
def writeDest (d : Operand) (result : Word) (s : State) : Result State :=
  let t := preDecrement d s
  onPlace d <|
    match operandAddress d t with
    | none => .next (postIncrement d (t.writeReg d.register result))
    | some a => andThen (store a result t) fun t => .next (postIncrement d t)

/-- The common course of an ALU or shift instruction once its condition holds: source 1, then source 0, each with its
side effect and whether or not the opcode uses it (R85, R168; D4, D5; entries 13 and 14), then the operation. -/
def withSources (s0 s1 : Operand) (s : State) (operation : Word → Word → State → Result State) : Result State :=
  andThen (readSource s1 s) fun p1 =>
    andThen (readSource s0 p1.2) fun p0 => operation p0.1 p1.1 p0.2

end Sys2Proof.Machine
end

