-- ==== Sys2Proof/Machine/Alu.lean ====
section
/-! DEFINITION. The sixteen ALU instructions (spec 41_alu.md). Each is its exact-integer formula over the shared
course `execAlu`. -/

namespace Sys2Proof.Machine

/-- The common shape of an ALU instruction (R110, R80): condition, sources, operation `f` of v0, v1 and the carry-in,
destination, flags last (R114, R131, D9, entry 18). -/
def execAlu (f : Word → Word → Int → AluOut) (cond : Cond) (c m : Bool) (d s0 s1 : Operand) (s : State) :
    Result State :=
  conditionally cond (operandWords d s0 s1) (fun t => onPlace d <|
    withSources s0 s1 t fun v0 v1 t =>
      andThen (writeDest d (f v0 v1 (carryIn c s)).result t) fun t =>
        .next (t.aluFlags m (f v0 v1 (carryIn c s)))) s

/-- An operation whose result without carry-in is the 32-bit word `l`: `E = u(l) + cin`, `S = s(l) + cin`
(R115, R121 to R130). -/
def wordOut (l : Word) (cin : Int) : AluOut := exactOut (l.toNat + cin) (l.toInt + cin)

/-- An addition with carry-in (R118). -/
def addOut (a b : Word) (cin : Int) : AluOut := exactOut (a.toNat + b.toNat + cin) (a.toInt + b.toInt + cin)

/-- A subtraction's answer, its C' by the parameter SUB_CARRY_IS_BORROW: where that is false, C' says that `e` is not
negative (R113, entry 17). -/
def differenceOut (borrow : Bool) (e g : Int) : AluOut :=
  { exactOut e g with carry := if borrow then (exactOut e g).carry else decide (0 ≤ e) }

/-- SUB: `s0 - s1`, plus the carry-in (R116). -/
def subOut (borrow : Bool) (a b : Word) (cin : Int) : AluOut :=
  differenceOut borrow (a.toNat - b.toNat + cin) (a.toInt - b.toInt + cin)

/-- DBL: `2 * s0`, plus the carry-in (R119). -/
def dblOut (a : Word) (cin : Int) : AluOut := exactOut (2 * a.toNat + cin) (2 * a.toInt + cin)

/-- DEC: `s0 - 1`, plus the carry-in (R120). -/
def decOut (borrow : Bool) (a : Word) (cin : Int) : AluOut :=
  differenceOut borrow (a.toNat - 1 + cin) (a.toInt - 1 + cin)

/-- MOVE, opcode 0000: d = s0 (R115). -/
def execMove (cond : Cond) (c m : Bool) (d s0 s1 : Operand) (s : State) : Result State :=
  execAlu (fun v0 _ => wordOut v0) cond c m d s0 s1 s

/-- SUB, opcode 0001: d = s0 - s1 (R116). -/
def execSub (cond : Cond) (c m : Bool) (d s0 s1 : Operand) (s : State) : Result State :=
  execAlu (subOut s.cfg.subCarryIsBorrow) cond c m d s0 s1 s

/-- MDBL, opcode 0010: d = s0 + (s0 && s1) (R117). -/
def execMdbl (cond : Cond) (c m : Bool) (d s0 s1 : Operand) (s : State) : Result State :=
  execAlu (fun v0 v1 => addOut v0 (v0 &&& v1)) cond c m d s0 s1 s

/-- ADD, opcode 0011: d = s0 + s1 (R118). -/
def execAdd (cond : Cond) (c m : Bool) (d s0 s1 : Operand) (s : State) : Result State :=
  execAlu addOut cond c m d s0 s1 s

/-- DBL, opcode 0100: d = 2 * s0 (R119). -/
def execDbl (cond : Cond) (c m : Bool) (d s0 s1 : Operand) (s : State) : Result State :=
  execAlu (fun v0 _ => dblOut v0) cond c m d s0 s1 s

/-- DEC, opcode 0101: d = s0 - 1 (R120). -/
def execDec (cond : Cond) (c m : Bool) (d s0 s1 : Operand) (s : State) : Result State :=
  execAlu (fun v0 _ => decOut s.cfg.subCarryIsBorrow v0) cond c m d s0 s1 s

/-- NOT, opcode 0110: d = !s0 (R121). -/
def execNot (cond : Cond) (c m : Bool) (d s0 s1 : Operand) (s : State) : Result State :=
  execAlu (fun v0 _ => wordOut (~~~v0)) cond c m d s0 s1 s

/-- NOR, opcode 0111: d = !(s0 || s1) (R122). -/
def execNor (cond : Cond) (c m : Bool) (d s0 s1 : Operand) (s : State) : Result State :=
  execAlu (fun v0 v1 => wordOut (~~~(v0 ||| v1))) cond c m d s0 s1 s

/-- IAND, opcode 1000: d = !s0 && s1, the negation on s0 only (R123). -/
def execIand (cond : Cond) (c m : Bool) (d s0 s1 : Operand) (s : State) : Result State :=
  execAlu (fun v0 v1 => wordOut (~~~v0 &&& v1)) cond c m d s0 s1 s

/-- NAND, opcode 1001: d = !(s0 && s1) (R124). -/
def execNand (cond : Cond) (c m : Bool) (d s0 s1 : Operand) (s : State) : Result State :=
  execAlu (fun v0 v1 => wordOut (~~~(v0 &&& v1))) cond c m d s0 s1 s

/-- XOR, opcode 1010: d = s0 ^ s1 (R125). -/
def execXor (cond : Cond) (c m : Bool) (d s0 s1 : Operand) (s : State) : Result State :=
  execAlu (fun v0 v1 => wordOut (v0 ^^^ v1)) cond c m d s0 s1 s

/-- IOR, opcode 1011: d = !s0 || s1, the negation on s0 only (R126). -/
def execIor (cond : Cond) (c m : Bool) (d s0 s1 : Operand) (s : State) : Result State :=
  execAlu (fun v0 v1 => wordOut (~~~v0 ||| v1)) cond c m d s0 s1 s

/-- XNOR, opcode 1100: d = !(s0 ^ s1) (R127). -/
def execXnor (cond : Cond) (c m : Bool) (d s0 s1 : Operand) (s : State) : Result State :=
  execAlu (fun v0 v1 => wordOut (~~~(v0 ^^^ v1))) cond c m d s0 s1 s

/-- AND, opcode 1101: d = s0 && s1 (R128). -/
def execAnd (cond : Cond) (c m : Bool) (d s0 s1 : Operand) (s : State) : Result State :=
  execAlu (fun v0 v1 => wordOut (v0 &&& v1)) cond c m d s0 s1 s

/-- ONE, opcode 1110: d = 1 (R129). -/
def execOne (cond : Cond) (c m : Bool) (d s0 s1 : Operand) (s : State) : Result State :=
  execAlu (fun _ _ => wordOut 1) cond c m d s0 s1 s

/-- OR, opcode 1111: d = s0 || s1 (R130). -/
def execOr (cond : Cond) (c m : Bool) (d s0 s1 : Operand) (s : State) : Result State :=
  execAlu (fun v0 v1 => wordOut (v0 ||| v1)) cond c m d s0 s1 s

end Sys2Proof.Machine
end

