-- ==== Sys2Proof/Machine/Halt.lean ====
section
/-! DEFINITION. The HALT instruction (spec 43_halt.md), the only one of the miscellaneous group. -/

namespace Sys2Proof.Machine

/-- HALT: one cell; if the condition holds the processor stops; bits 25:0 are ignored (R160, R161, D12, entry 20). -/
def execHalt (cond : Cond) (_rest : BitVec 26) (s : State) : Result State :=
  conditionally cond 1 (fun t => .next t.halt) s

end Sys2Proof.Machine
end

