-- ==== Sys2Proof/Machine/Shift.lean ====
section
/-! DEFINITION. The sixteen shift encodings (spec 42_shift.md). What each does is its SHIFT_TABLE entry, by the general
shift rule R142. -/

namespace Sys2Proof.Machine

/-- The SHIFT_TABLE entry of a shift opcode (R145). -/
def State.shiftEntry (s : State) (opcode : BitVec 4) : Option ShiftDesc := s.cfg.shiftTable[opcode.toFin]

/-- The bit a fill gives, from the state before the instruction (R142); a FREE VALUE for a fill that is neither `zero`
nor `carry` (entry 9). -/
def fillBit (fill : ShiftFill) (s : State) : Bool :=
  match fill with
  | .zero => false
  | .carry => s.flag .c
  | .other k => Config.otherFill k s.regs.toList s.mem

/-- A word shifted by one position (R142, R147, D10, entry 19): the result and the bit that leaves the word. -/
def shiftWordBy (dir : ShiftDir) (f : Bool) (v : Word) : Word × Bool :=
  match dir with
  | .right => (BitVec.ofBool f ++ v.extractLsb' 1 31, v[0])
  | .left => (v.extractLsb' 0 31 ++ BitVec.ofBool f, v[31])

/-- An executed shift with descriptor `desc` (R142): `s` is the state before the instruction, `t` the state with
R15 advanced. Source 1 is evaluated and its value ignored (R147); the flags come after the destination (R148). -/
def runShift (desc : ShiftDesc) (m : Bool) (d s0 s1 : Operand) (s t : State) : Result State :=
  withSources s0 s1 t fun v0 _ t =>
    let p := shiftWordBy desc.dir (fillBit desc.fill s) v0
    andThen (writeDest d p.1 t) fun t => .next (t.shiftFlags m desc.sink p.1 p.2)

/-- The common shape of a shift instruction (R140, R80): condition, then the descriptor of its opcode; an unknown
entry is refused (R145, D11, entry 8). -/
def execShift (opcode : BitVec 4) (cond : Cond) (m : Bool) (d s0 s1 : Operand) (s : State) : Result State :=
  conditionally cond (operandWords d s0 s1) (fun t => onPlace d <|
    match s.shiftEntry opcode with
    | none => .refused (.shiftOpcodeUnknown opcode)
    | some desc => runShift desc m d s0 s1 s t) s

/-- SHIFT.0000 (R82, R145). -/
def execShift0000 (cond : Cond) (m : Bool) (d s0 s1 : Operand) (s : State) : Result State :=
  execShift 0 cond m d s0 s1 s

/-- SHIFT.0001 (R82, R145). -/
def execShift0001 (cond : Cond) (m : Bool) (d s0 s1 : Operand) (s : State) : Result State :=
  execShift 1 cond m d s0 s1 s

/-- SHIFT.0010 (R82, R145). -/
def execShift0010 (cond : Cond) (m : Bool) (d s0 s1 : Operand) (s : State) : Result State :=
  execShift 2 cond m d s0 s1 s

/-- SHIFT.0011 (R82, R145). -/
def execShift0011 (cond : Cond) (m : Bool) (d s0 s1 : Operand) (s : State) : Result State :=
  execShift 3 cond m d s0 s1 s

/-- SHIFT.0100 (R82, R145). -/
def execShift0100 (cond : Cond) (m : Bool) (d s0 s1 : Operand) (s : State) : Result State :=
  execShift 4 cond m d s0 s1 s

/-- SHIFT.0101 (R82, R145). -/
def execShift0101 (cond : Cond) (m : Bool) (d s0 s1 : Operand) (s : State) : Result State :=
  execShift 5 cond m d s0 s1 s

/-- SHIFT.0110 (R82, R145). -/
def execShift0110 (cond : Cond) (m : Bool) (d s0 s1 : Operand) (s : State) : Result State :=
  execShift 6 cond m d s0 s1 s

/-- SHIFT.0111 (R82, R145). -/
def execShift0111 (cond : Cond) (m : Bool) (d s0 s1 : Operand) (s : State) : Result State :=
  execShift 7 cond m d s0 s1 s

/-- SHIFT.1000 (R82, R145). -/
def execShift1000 (cond : Cond) (m : Bool) (d s0 s1 : Operand) (s : State) : Result State :=
  execShift 8 cond m d s0 s1 s

/-- SHIFT.1001 (R82, R145). -/
def execShift1001 (cond : Cond) (m : Bool) (d s0 s1 : Operand) (s : State) : Result State :=
  execShift 9 cond m d s0 s1 s

/-- SHIFT.1010 (R82, R145). -/
def execShift1010 (cond : Cond) (m : Bool) (d s0 s1 : Operand) (s : State) : Result State :=
  execShift 10 cond m d s0 s1 s

/-- SHIFT.1011 (R82, R145). -/
def execShift1011 (cond : Cond) (m : Bool) (d s0 s1 : Operand) (s : State) : Result State :=
  execShift 11 cond m d s0 s1 s

/-- SHIFT.1100 (R82, R145). -/
def execShift1100 (cond : Cond) (m : Bool) (d s0 s1 : Operand) (s : State) : Result State :=
  execShift 12 cond m d s0 s1 s

/-- SHIFT.1101 (R82, R145). -/
def execShift1101 (cond : Cond) (m : Bool) (d s0 s1 : Operand) (s : State) : Result State :=
  execShift 13 cond m d s0 s1 s

/-- SHIFT.1110 (R82, R145). -/
def execShift1110 (cond : Cond) (m : Bool) (d s0 s1 : Operand) (s : State) : Result State :=
  execShift 14 cond m d s0 s1 s

/-- SHIFT.1111 (R82, R145). -/
def execShift1111 (cond : Cond) (m : Bool) (d s0 s1 : Operand) (s : State) : Result State :=
  execShift 15 cond m d s0 s1 s

end Sys2Proof.Machine
end

