-- ==== Sys2Proof/Machine/Dispatch.lean ====
section
/-! DEFINITION. One arm per instruction: each is one call of its meaning. -/

namespace Sys2Proof.Machine

/-- What an instruction does to the state in which R15 holds its address (R80 from the advance of R15 on). -/
def exec (i : Instr) (s : State) : Host.Outcome State Fault Refusal :=
  match i with
  | .move cond c m d s0 s1 => Sys2Proof.Machine.execMove cond c m d s0 s1 s
  | .sub cond c m d s0 s1 => Sys2Proof.Machine.execSub cond c m d s0 s1 s
  | .mdbl cond c m d s0 s1 => Sys2Proof.Machine.execMdbl cond c m d s0 s1 s
  | .add cond c m d s0 s1 => Sys2Proof.Machine.execAdd cond c m d s0 s1 s
  | .dbl cond c m d s0 s1 => Sys2Proof.Machine.execDbl cond c m d s0 s1 s
  | .dec cond c m d s0 s1 => Sys2Proof.Machine.execDec cond c m d s0 s1 s
  | .not cond c m d s0 s1 => Sys2Proof.Machine.execNot cond c m d s0 s1 s
  | .nor cond c m d s0 s1 => Sys2Proof.Machine.execNor cond c m d s0 s1 s
  | .iand cond c m d s0 s1 => Sys2Proof.Machine.execIand cond c m d s0 s1 s
  | .nand cond c m d s0 s1 => Sys2Proof.Machine.execNand cond c m d s0 s1 s
  | .xor cond c m d s0 s1 => Sys2Proof.Machine.execXor cond c m d s0 s1 s
  | .ior cond c m d s0 s1 => Sys2Proof.Machine.execIor cond c m d s0 s1 s
  | .xnor cond c m d s0 s1 => Sys2Proof.Machine.execXnor cond c m d s0 s1 s
  | .and cond c m d s0 s1 => Sys2Proof.Machine.execAnd cond c m d s0 s1 s
  | .one cond c m d s0 s1 => Sys2Proof.Machine.execOne cond c m d s0 s1 s
  | .or cond c m d s0 s1 => Sys2Proof.Machine.execOr cond c m d s0 s1 s
  | .shift0000 cond m d s0 s1 => Sys2Proof.Machine.execShift0000 cond m d s0 s1 s
  | .shift0001 cond m d s0 s1 => Sys2Proof.Machine.execShift0001 cond m d s0 s1 s
  | .shift0010 cond m d s0 s1 => Sys2Proof.Machine.execShift0010 cond m d s0 s1 s
  | .shift0011 cond m d s0 s1 => Sys2Proof.Machine.execShift0011 cond m d s0 s1 s
  | .shift0100 cond m d s0 s1 => Sys2Proof.Machine.execShift0100 cond m d s0 s1 s
  | .shift0101 cond m d s0 s1 => Sys2Proof.Machine.execShift0101 cond m d s0 s1 s
  | .shift0110 cond m d s0 s1 => Sys2Proof.Machine.execShift0110 cond m d s0 s1 s
  | .shift0111 cond m d s0 s1 => Sys2Proof.Machine.execShift0111 cond m d s0 s1 s
  | .shift1000 cond m d s0 s1 => Sys2Proof.Machine.execShift1000 cond m d s0 s1 s
  | .shift1001 cond m d s0 s1 => Sys2Proof.Machine.execShift1001 cond m d s0 s1 s
  | .shift1010 cond m d s0 s1 => Sys2Proof.Machine.execShift1010 cond m d s0 s1 s
  | .shift1011 cond m d s0 s1 => Sys2Proof.Machine.execShift1011 cond m d s0 s1 s
  | .shift1100 cond m d s0 s1 => Sys2Proof.Machine.execShift1100 cond m d s0 s1 s
  | .shift1101 cond m d s0 s1 => Sys2Proof.Machine.execShift1101 cond m d s0 s1 s
  | .shift1110 cond m d s0 s1 => Sys2Proof.Machine.execShift1110 cond m d s0 s1 s
  | .shift1111 cond m d s0 s1 => Sys2Proof.Machine.execShift1111 cond m d s0 s1 s
  | .halt cond rest => Sys2Proof.Machine.execHalt cond rest s

end Sys2Proof.Machine
end

