-- ==== Sys2Proof/Machine/Fetch.lean ====
section
/-! DEFINITION. Fetching an instruction, and placing one where it is fetched from (spec 30_encoding.md R80 steps 1 and
2, 70_reset_and_hazards.md R240). -/

namespace Sys2Proof.Machine

/-- Read `n` cells in order from an address, which wraps at 2^32 (R31). -/
def fetchCells (s : State) : Nat → Word → Result (List Word)
  | 0, _ => .next []
  | n + 1, a => andThen (load a s) fun w => andThen (fetchCells s n (a + 1)) fun ws => .next (w :: ws)

/-- The instruction at R15: its word is read first and tells how many constants follow (R77, R87); all of them are
read before anything else happens (R80, D3, entry 12). -/
def fetch (s : State) : Result Instr :=
  andThen (load (s.reg 15) s) fun w =>
    andThen (fetchCells s (constantCount s.cfg.modeTable w) (s.reg 15 + 1)) fun ks =>
      match decode s.cfg.modeTable (w :: ks) with
      | .ok (i, _) => .next i
      | .error _ => .refused .undecodable

/-- What a step of a halted machine is: nothing changes (R162, D12). DESIGN CHOICE, entry 20: the final state is
written as a state that steps to itself. -/
def stepHalted (s : State) : Result State := .next s

/-- The state with words placed in consecutive cells from an address. -/
def placeWords (s : State) (a : Word) : List Word → State
  | [] => s
  | w :: ws => placeWords { s with mem := s.mem.write a.toNat w } (a + 1) ws

/-- A state in which the next step fetches the given words: they are placed at R15, the machine is not halted, and no
interrupt request comes first (entry 25). -/
def placeAtPc (s : State) (ws : List Word) : State :=
  { placeWords s (s.reg 15) ws with halted := false, cfg := { s.cfg with irq := .never } }

end Sys2Proof.Machine
end

