-- ==== Sys2Proof/Machine/Cycle.lean ====
section
/-! DEFINITION. What a running machine does next: it takes an accepted interrupt request, or fetches and executes one
instruction (spec 30_encoding.md R80, 60_exceptions.md R208). -/

namespace Sys2Proof.Machine

/-- One step of a machine that is not halted, with the request presented to it. A request that is accepted is taken
before the next fetch, as a step of its own (R208, D17, entry 21); otherwise the instruction at R15 is executed (R80). -/
def cycle (request : Option InterruptKind) (s : State) : Result State :=
  match request.filter s.acceptsInterrupt with
  | some _ => s.takeInterrupt
  | none => andThen (fetch s) fun i => exec i s

end Sys2Proof.Machine
end

