-- ==== Sys2Proof/Machine/Step.lean ====
section
/-! DEFINITION. One step of the machine (spec 30_encoding.md R80), and the host's way to place one instruction. -/

namespace Sys2Proof.Machine

/-- One step: a halted machine stays as it is (R162); otherwise the machine takes an accepted interrupt request, which
none is with IRQ `never` (R206), or executes the instruction at R15 (R80). -/
def step (s : State) : Host.Outcome State Fault Refusal :=
  if s.halted then stepHalted s else cycle s.request s.polled

/-- The state with the instruction whose bits are `w` where the next step fetches it (entry 25). -/
def State.withFetchWord (s : State) (nbits w : Nat) : State := placeAtPc s (tableWords nbits w)

end Sys2Proof.Machine
end

