-- ==== Sys2Proof/Safety.lean ====
section
/-! DEFINITION. What claims speak of: the invariant of the machine, final and stuck states, and, for an operand that can
be used, the value and the states it gives, as plain functions of the state. -/

namespace Sys2Proof

/-- The operand is what a 7-bit field encodes, but for its constant: its form is the one MODE_TABLE gives the upper three
bits, its register the lower four (R76, R167). -/
def Operand.ofField (t : ModeTable) (o : Operand) (f : BitVec 7) : Prop :=
  o.form = t.form (f.extractLsb' 4 3) ∧ o.register = (f.extractLsb' 0 4).toFin

namespace Machine

/-- The invariant: the parameters are within the spec's limits (R6, R59, R145, R167), memory is in canonical form, only admitted
cells are listed (R51), the stored R14 has bit 24 set (R27), and only display cells were shown (R59). -/
abbrev State.Inv (s : State) : Prop :=
  s.cfg.wf ∧ s.mem.wf ∧ (∀ p ∈ s.mem, p.1 < s.cfg.memWords) ∧ s.regs[13][24] = true ∧
    ∀ p ∈ s.screen, displayed s.cfg p.1 = true

/-- A final state: the end of a run (R236). -/
def State.final (s : State) : Prop := s.halted = true

/-- A stuck state, which is not final: the next step needs a cell that does not exist (R51, R236). -/
def State.stuck (s : State) : Prop := ∃ a, step s = .fault (.notAdmitted a)

/-- The operand can be used in this state: it does not go through memory, or the address it names is admitted. -/
def operandReady (o : Operand) (s : State) : Bool :=
  match operandAddress o (preDecrement o s) with
  | none => true
  | some a => s.admitted a

/-- The value a ready source operand gives (R170 to R177). -/
def sourceValue (o : Operand) (s : State) : Word :=
  match operandAddress o (preDecrement o s) with
  | none => plainValue o (preDecrement o s)
  | some a => s.cell a

/-- The state a ready source operand leaves (R170 to R177). -/
def sourceState (o : Operand) (s : State) : State := postIncrement o (preDecrement o s)

/-- The state a ready destination operand leaves (R180 to R187). -/
def destState (d : Operand) (result : Word) (s : State) : State :=
  match operandAddress d (preDecrement d s) with
  | none => postIncrement d ((preDecrement d s).writeReg d.register result)
  | some a => postIncrement d ((preDecrement d s).writeCell a result)

/-! The course of an instruction with operands `d`, `s0`, `s1` (R80, R168), each step in the state the one before it
leaves. -/

/-- The state in which the operands are evaluated: R15 past the instruction and its constants (R32). -/
def operandState (d s0 s1 : Operand) (s : State) : State := s.advance (operandWords d s0 s1)

/-- The value of source 1, which is evaluated first (R168). -/
def value1 (d s0 s1 : Operand) (s : State) : Word := sourceValue s1 (operandState d s0 s1 s)

/-- The value of source 0, evaluated in the state source 1 leaves (R168). -/
def value0 (d s0 s1 : Operand) (s : State) : Word := sourceValue s0 (sourceState s1 (operandState d s0 s1 s))

/-- The state both sources leave, in which the destination is evaluated (R168). -/
def sourcesRead (d s0 s1 : Operand) (s : State) : State :=
  sourceState s0 (sourceState s1 (operandState d s0 s1 s))

/-- The destination is a place and every operand is ready when its turn comes: nothing stops the instruction. -/
def operandsReady (d s0 s1 : Operand) (s : State) : Bool :=
  d.isPlace && operandReady s1 (operandState d s0 s1 s) &&
    operandReady s0 (sourceState s1 (operandState d s0 s1 s)) && operandReady d (sourcesRead d s0 s1 s)

/-- The address an instruction stores to, if its destination goes through memory: the one `writeDest` computes, in
the state after the sources and the destination's pre-decrement. -/
def storeAddress (d s0 s1 : Operand) (s : State) : Option Word :=
  operandAddress d (preDecrement d (sourcesRead d s0 s1 s))

end Machine

end Sys2Proof
end

