-- ==== Sys2Proof/Certificates/Slice0/Obligations.lean ====
section
/-! DEFINITION. The statements for the provers. Each docstring names the rule of spec/ it follows; where the rule rests
on a decision of the spec (D<n>) or on a choice of the model (entry <n>), it says so. -/

namespace Sys2Proof

/-- The sixteen ALU instructions with the same fields, in the order of their opcodes (R81). -/
def aluInstrs (cond : Cond) (c m : Bool) (d s0 s1 : Operand) : List Instr :=
  [.move cond c m d s0 s1, .sub cond c m d s0 s1, .mdbl cond c m d s0 s1, .add cond c m d s0 s1,
   .dbl cond c m d s0 s1, .dec cond c m d s0 s1, .not cond c m d s0 s1, .nor cond c m d s0 s1,
   .iand cond c m d s0 s1, .nand cond c m d s0 s1, .xor cond c m d s0 s1, .ior cond c m d s0 s1,
   .xnor cond c m d s0 s1, .and cond c m d s0 s1, .one cond c m d s0 s1, .or cond c m d s0 s1]

/-- The sixteen shift instructions with the same fields, in the order of their opcodes (R82). -/
def shiftInstrs (cond : Cond) (m : Bool) (d s0 s1 : Operand) : List Instr :=
  [.shift0000 cond m d s0 s1, .shift0001 cond m d s0 s1, .shift0010 cond m d s0 s1, .shift0011 cond m d s0 s1,
   .shift0100 cond m d s0 s1, .shift0101 cond m d s0 s1, .shift0110 cond m d s0 s1, .shift0111 cond m d s0 s1,
   .shift1000 cond m d s0 s1, .shift1001 cond m d s0 s1, .shift1010 cond m d s0 s1, .shift1011 cond m d s0 s1,
   .shift1100 cond m d s0 s1, .shift1101 cond m d s0 s1, .shift1110 cond m d s0 s1, .shift1111 cond m d s0 s1]

/-- The shift instructions with their opcodes (R82). -/
def shiftRows (cond : Cond) (m : Bool) (d s0 s1 : Operand) : List (BitVec 4 × Instr) :=
  [(0, .shift0000 cond m d s0 s1), (1, .shift0001 cond m d s0 s1), (2, .shift0010 cond m d s0 s1),
   (3, .shift0011 cond m d s0 s1), (4, .shift0100 cond m d s0 s1), (5, .shift0101 cond m d s0 s1),
   (6, .shift0110 cond m d s0 s1), (7, .shift0111 cond m d s0 s1), (8, .shift1000 cond m d s0 s1),
   (9, .shift1001 cond m d s0 s1), (10, .shift1010 cond m d s0 s1), (11, .shift1011 cond m d s0 s1),
   (12, .shift1100 cond m d s0 s1), (13, .shift1101 cond m d s0 s1), (14, .shift1110 cond m d s0 s1),
   (15, .shift1111 cond m d s0 s1)]

/-- The source's ALU table (R81): opcode, instruction without carry-in and flag update, and what it puts in the
destination, of source values `a` (s0) and `b` (s1). -/
def aluTable (cond : Cond) (d s0 s1 : Operand) (a b : Word) : List (BitVec 4 × Instr × Word) :=
  [(0, .move cond false false d s0 s1, a), (1, .sub cond false false d s0 s1, a - b),
   (2, .mdbl cond false false d s0 s1, a + (a &&& b)), (3, .add cond false false d s0 s1, a + b),
   (4, .dbl cond false false d s0 s1, 2 * a), (5, .dec cond false false d s0 s1, a - 1),
   (6, .not cond false false d s0 s1, ~~~a), (7, .nor cond false false d s0 s1, ~~~(a ||| b)),
   (8, .iand cond false false d s0 s1, ~~~a &&& b), (9, .nand cond false false d s0 s1, ~~~(a &&& b)),
   (10, .xor cond false false d s0 s1, a ^^^ b), (11, .ior cond false false d s0 s1, ~~~a ||| b),
   (12, .xnor cond false false d s0 s1, ~~~(a ^^^ b)), (13, .and cond false false d s0 s1, a &&& b),
   (14, .one cond false false d s0 s1, 1), (15, .or cond false false d s0 s1, a ||| b)]

/-- The nine logic instructions with the word each computes before the carry-in is added (R121 to R128, R130). -/
def logicTable (cond : Cond) (c m : Bool) (d s0 s1 : Operand) (a b : Word) : List (Instr × Word) :=
  [(.not cond c m d s0 s1, ~~~a), (.nor cond c m d s0 s1, ~~~(a ||| b)),
   (.iand cond c m d s0 s1, ~~~a &&& b), (.nand cond c m d s0 s1, ~~~(a &&& b)),
   (.xor cond c m d s0 s1, a ^^^ b), (.ior cond c m d s0 s1, ~~~a ||| b),
   (.xnor cond c m d s0 s1, ~~~(a ^^^ b)), (.and cond c m d s0 s1, a &&& b),
   (.or cond c m d s0 s1, a ||| b)]

namespace Machine

/-- The four cells from R15 on, as many as the longest instruction takes (R70). -/
def cellsAtPc (s : State) : List Word :=
  [s.cell (s.reg 15), s.cell (s.reg 15 + 1), s.cell (s.reg 15 + 2), s.cell (s.reg 15 + 3)]

/-- What a register holds after `v` is written to it (R22): R0 zero, R14 with bit 24 set. -/
def held (r : RegNo) (v : Word) : Word := if r = 0 then 0 else if r = 14 then v ||| 0x01000000 else v

/-- `t` is `s` but that register `r` reads `v`. -/
def OnlyRegister (r : RegNo) (v : Word) (s t : State) : Prop :=
  (∀ j, t.reg j = if j = r then v else s.reg j) ∧ t.mem = s.mem ∧ t.halted = s.halted ∧ t.screen = s.screen ∧
    t.cfg = s.cfg ∧ t.polls = s.polls

/-- `t` is `s`, registers apart, but that cell `a` holds `v`, and that the screen shows it if it is a display cell. -/
def OnlyCell (a v : Word) (s t : State) : Prop :=
  t.cell a = v ∧ (∀ b, b ≠ a → t.cell b = s.cell b) ∧ t.halted = s.halted ∧ t.cfg = s.cfg ∧ t.polls = s.polls ∧
    t.screen = if displayed s.cfg a.toNat then (a.toNat, v) :: s.screen else s.screen

/-- The carry-in as a number: the C bit of R14 before the instruction if instruction bit 26 is set (R111, D7). -/
def cin (c : Bool) (s : State) : Nat := if c && s.flag .c then 1 else 0

/-- An executed ALU instruction completes with this answer: the result goes to the destination and, with the M bit set,
the flags describe it. -/
def AluAnswers (i : Instr) (m : Bool) (d s0 s1 : Operand) (s : State) (out : AluOut) : Prop :=
  exec i s = .next ((destState d out.result (sourcesRead d s0 s1 s)).aluFlags m out)

/-- The address a source operand reads, if it goes through memory, in the state in which its turn comes. -/
def loadAddress (o : Operand) (s : State) : Option Word := operandAddress o (preDecrement o s)

/-- A source operand changes a register it increments or decrements (R169). -/
def sourceWrites (o : Operand) (j : RegNo) : Prop :=
  match o with
  | .preDec r | .postInc r | .memPreDec r | .memPostInc r => j = r
  | .reg _ | .const _ _ | .mem _ | .memConst _ _ => False

/-- A destination operand changes the register it stores the result in, increments or decrements (R180 to R187). -/
def destWrites (o : Operand) (j : RegNo) : Prop :=
  match o with
  | .reg r | .preDec r | .postInc r | .memPreDec r | .memPostInc r => j = r
  | .const _ _ | .mem _ | .memConst _ _ => False

/-- An operand of the instruction writes the register. -/
def operandWrites (d s0 s1 : Operand) (j : RegNo) : Prop := destWrites d j ∨ sourceWrites s0 j ∨ sourceWrites s1 j

/-- What no executed ALU or shift instruction changes: registers its operands do not write (R14 and R15 apart), every
cell but the one it stores to, `halted` and the parameters; the screen only where it stores. -/
def OperandFrame (d s0 s1 : Operand) (s t : State) : Prop :=
  (∀ j : RegNo, j ≠ 14 → j ≠ 15 → ¬ operandWrites d s0 s1 j → t.reg j = s.reg j) ∧
    (∀ b : Word, storeAddress d s0 s1 s ≠ some b → t.cell b = s.cell b) ∧
    (storeAddress d s0 s1 s = none → t.mem = s.mem ∧ t.screen = s.screen) ∧ t.halted = s.halted ∧ t.cfg = s.cfg ∧
    t.polls = s.polls

/-- A rotation by one through the carry, as `C>C` does it on a word and the C bit. -/
def rotateOnce (p : Word × Bool) : Word × Bool := shiftWordBy .right p.2 p.1

end Machine

end Sys2Proof

open Sys2Proof Sys2Proof.Machine

/-! ### Encoding -/

/-- Decoding the words of any instruction gives it back, whatever follows, for every MODE_TABLE within its limits (R71,
R73 to R78; the order of constants is D3, the mode codes are D1). -/
def Obligations.DecodeInvertsEncode : Prop :=
  ∀ (t : ModeTable) (i : Instr) (rest : List Word), t.wf → decode t (encode t i ++ rest) = .ok (i, rest)

/-- Words that decode are the words of what they decode to: no bit is dropped (R70, R71, R77, R78; D1, D3). -/
def Obligations.EncodeInvertsDecode : Prop :=
  ∀ (t : ModeTable) (ws rest : List Word) (i : Instr), t.wf → decode t ws = .ok (i, rest) → ws = encode t i ++ rest

/-- R73: where bit 27 is clear the word is the ALU instruction of bits 24:21, with the condition in 31:28, C in 26, M in
25 and the operand fields in 20:14, 13:7 and 6:0. -/
def Obligations.AluWordFormat : Prop :=
  ∀ (t : ModeTable) (w : Word) (ks rest : List Word) (i : Instr), decode t (w :: ks) = .ok (i, rest) → w[27] = false →
    ∃ cond d s0 s1,
      (aluInstrs cond w[26] w[25] d s0 s1)[(w.extractLsb' 21 4).toNat]? = some i ∧
        cond.field = w.extractLsb' 28 4 ∧ d.ofField t (w.extractLsb' 14 7) ∧ s0.ofField t (w.extractLsb' 7 7) ∧
        s1.ofField t (w.extractLsb' 0 7)

/-- R74: where bits 27:26 are 10 the word is the shift instruction of bits 24:21, with the condition in 31:28, M in 25
and the operand fields in 20:14, 13:7 and 6:0. -/
def Obligations.ShiftWordFormat : Prop :=
  ∀ (t : ModeTable) (w : Word) (ks rest : List Word) (i : Instr), decode t (w :: ks) = .ok (i, rest) → w[27] = true →
    w[26] = false →
    ∃ cond d s0 s1,
      (shiftInstrs cond w[25] d s0 s1)[(w.extractLsb' 21 4).toNat]? = some i ∧
        cond.field = w.extractLsb' 28 4 ∧ d.ofField t (w.extractLsb' 14 7) ∧ s0.ofField t (w.extractLsb' 7 7) ∧
        s1.ofField t (w.extractLsb' 0 7)

/-- Where bits 27:26 are 11 the word is HALT with the condition in 31:28 (30_encoding.md section 1); it takes no further
word, and bits 25:0 have no meaning: HALTs that differ in them alone do the same (43_halt.md, D12, entry 20; that the
bits are kept in the syntax is entry 32). -/
def Obligations.HaltWordFormat : Prop :=
  ∀ (t : ModeTable) (w : Word) (ks rest : List Word) (i : Instr), decode t (w :: ks) = .ok (i, rest) → w[27] = true →
    w[26] = true →
    ∃ cond, i = .halt cond (w.extractLsb' 0 26) ∧ cond.field = w.extractLsb' 28 4 ∧ rest = ks ∧
      ∀ (other : BitVec 26) (s : State), exec (.halt cond other) s = exec i s

/-- R76: the mode and the register number of each operand stand in bits 20:18 and 17:14, 13:11 and 10:7, 6:4 and
3:0. -/
def Obligations.OperandFieldLayout : Prop :=
  ∀ (t : ModeTable) (w : Word) (ks rest : List Word) (i : Instr) (d s0 s1 : Operand),
    decode t (w :: ks) = .ok (i, rest) → i.operands = some (d, s0, s1) →
    (d.form = t.form (w.extractLsb' 18 3) ∧ d.register.val = (w.extractLsb' 14 4).toNat) ∧
      (s0.form = t.form (w.extractLsb' 11 3) ∧ s0.register.val = (w.extractLsb' 7 4).toNat) ∧
      (s1.form = t.form (w.extractLsb' 4 3) ∧ s1.register.val = (w.extractLsb' 0 4).toNat)

/-- The length of an instruction told from its first word: one for HALT, else one more than the number of operand fields
with mode bits 1:0 = 11 (30_encoding.md R87, which the spec derives; mode 011 owning a constant is D1: with another
MODE_TABLE it is said here of those that keep that code); and that many words are taken. -/
def Obligations.LengthFromInstructionWord : Prop :=
  ∀ (t : ModeTable) (w : Word) (ks rest : List Word) (i : Instr), t.wf → t.form 3#3 = .const →
    decode t (w :: ks) = .ok (i, rest) →
    i.length = (if w[27] && w[26] then 1
      else 1 + (if w.extractLsb' 18 2 = 3#2 then 1 else 0) + (if w.extractLsb' 11 2 = 3#2 then 1 else 0) +
        (if w.extractLsb' 4 2 = 3#2 then 1 else 0)) ∧
      (w :: ks).length = i.length + rest.length

/-- Every word is an instruction word, with at most three constants (30_encoding.md section 5: "No instruction word is
illegal"). -/
def Obligations.NoWordIsIllegal : Prop :=
  ∀ (t : ModeTable) (w k0 k1 k2 : Word), ∃ i rest, decode t [w, k0, k1, k2] = .ok (i, rest)

/-- Words written out in 95_test_vectors.md sections 1.1 and 2.6 decode to the instructions the spec names. -/
def Obligations.SpecWordsDecode : Prop :=
  decode .reconstruction [0x00604082] = .ok (.add ⟨false, .always⟩ false false (.reg 1) (.reg 1) (.reg 2), []) ∧
    decode .reconstruction [0x06794104] = .ok (.add ⟨false, .always⟩ true true (.memPostInc 5) (.reg 2) (.reg 4), []) ∧
    decode .reconstruction [0xB278C971, 0x12345678] =
      .ok (.add ⟨true, .z⟩ false true (.memPostInc 3) (.preDec 2) (.memConst 1 0x12345678), []) ∧
    decode .reconstruction [0x007C1830, 0x80, 0x11, 0x22] =
      .ok (.add ⟨false, .always⟩ false false (.memConst 0 0x80) (.const 0 0x11) (.const 0 0x22), []) ∧
    decode .reconstruction [0xF1E00000] = .ok (.or ⟨true, .i⟩ false false (.reg 0) (.reg 0) (.reg 0), []) ∧
    decode .reconstruction [0x0BE00000] = .ok (.shift1111 ⟨false, .always⟩ true (.reg 0) (.reg 0) (.reg 0), []) ∧
    decode .reconstruction [0x8C000000] = .ok (.halt ⟨true, .always⟩ 0, [])

/-! ### The step -/

/-- Where the cells from R15 on decode to an instruction and those it takes are admitted, a running machine to which no
request is presented, or one it does not accept, executes that instruction on the state, R15 still at its address
(30_encoding.md section 3; that all constants are fetched first is D3). With IRQ `never` that is what a step is
(60_exceptions.md R206, D17, entry 21). -/
def Obligations.StepRunsDecodedInstruction : Prop :=
  ∀ (s : State) (i : Instr) (rest : List Word), decode s.cfg.modeTable (cellsAtPc s) = .ok (i, rest) →
    (∀ n, n < i.length → s.admitted (s.reg 15 + BitVec.ofNat 32 n) = true) →
    cycle none s = exec i s ∧ (∀ kind, s.acceptsInterrupt kind = false → cycle (some kind) s = exec i s) ∧
      (s.halted = false → s.cfg.irq = .never → step s = exec i s)

/-- A fetch is stuck at the first cell of the instruction that is not admitted (20_memory.md section 1, D13; the fault is
the model's rendering of "no step", entry 7). -/
def Obligations.FetchOutsideMemoryIsStuck : Prop :=
  ∀ (s : State) (i : Instr) (rest : List Word) (n : Nat), decode s.cfg.modeTable (cellsAtPc s) = .ok (i, rest) →
    n < i.length → (∀ k, k < n → s.admitted (s.reg 15 + BitVec.ofNat 32 k) = true) →
    s.admitted (s.reg 15 + BitVec.ofNat 32 n) = false →
    cycle none s = .fault (.notAdmitted (s.reg 15 + BitVec.ofNat 32 n)) ∧
      (s.halted = false → s.cfg.irq = .never → step s = .fault (.notAdmitted (s.reg 15 + BitVec.ofNat 32 n)))

/-- A halted machine stays in the same state for ever (43_halt.md section on the halted state, D12; that the final state
steps to itself is the model's choice, entry 20). -/
def Obligations.HaltedIsFinal : Prop :=
  ∀ (s : State) (k : Nat), s.halted = true → Host.Core.run core k s = .next s

/-! ### Conditional execution -/

/-- R100: with the instruction word at hand, the condition is bit 24 + w[30:28] of R14, negated if w[31] is set; where
it is 0 the instruction does not execute: no register but R15 changes, and no memory. -/
def Obligations.ConditionTestSelectsStatusBit : Prop :=
  ∀ (t : ModeTable) (w : Word) (ks rest : List Word) (i : Instr) (s : State), decode t (w :: ks) = .ok (i, rest) →
    s.meets i.cond = ((s.reg 14).getLsbD (24 + (w.extractLsb' 28 3).toNat) ^^ w[31]) ∧
      (s.meets i.cond = false → ∃ t, exec i s = .next t ∧ (∀ j, j ≠ 15 → t.reg j = s.reg j) ∧ t.mem = s.mem ∧
        t.halted = s.halted ∧ t.screen = s.screen)

/-- A false condition: R15 moves past the instruction and all its constants and nothing else changes (40_condition.md,
D6). -/
def Obligations.FalseConditionOnlyAdvancesR15 : Prop :=
  ∀ (i : Instr) (s : State), s.meets i.cond = false →
    ∃ t, exec i s = .next t ∧ OnlyRegister 15 (s.reg 15 + BitVec.ofNat 32 i.length) s t

/-- Code 0000 always executes, code 1000 never (40_condition.md, derived there from R27 and R100): in every state the
condition of the first holds and an instruction with the second is skipped. -/
def Obligations.CodesZeroAndEight : Prop :=
  ∀ (i : Instr) (s : State),
    (i.cond.field = 0#4 → s.meets i.cond = true) ∧
      (i.cond.field = 8#4 → exec i s = .next (s.advance i.length))

/-! ### Registers and memory -/

/-- R0 as a source gives zero (or the constant) and as a destination discards the result, without any change
(44_operands.md section 4, derived there). -/
def Obligations.RegisterZeroReadsZeroAndDiscards : Prop :=
  ∀ (s : State) (k v : Word),
    (∀ o ∈ [Operand.reg 0, .preDec 0, .postInc 0], readSource o s = .next (0, s) ∧ writeDest o v s = .next s) ∧
      readSource (.const 0 k) s = .next (k, s)

/-- R27: bit 24 of R14 reads 1 in every state, a write cannot clear it, and so condition code 0000 is always true. -/
def Obligations.StatusBit24IsHardwired : Prop :=
  ∀ (s : State) (v : Word),
    (s.reg 14)[24] = true ∧ ((s.writeReg 14 v).reg 14)[24] = true ∧ s.meets ⟨false, .always⟩ = true

/-- A MOVE into R14 (10_state.md section 2, 41_alu.md section 3; D9): every bit but 24 takes the value moved, and with
M set the five flags then describe that value. -/
def Obligations.StatusRegisterDestination : Prop :=
  ∀ (cond : Cond) (m : Bool) (s0 s1 : Operand) (s : State), s.meets cond = true →
    operandsReady (.reg 14) s0 s1 s = true →
    let v := value0 (.reg 14) s0 s1 s
    ∃ t, exec (.move cond false m (.reg 14) s0 s1) s = .next t ∧
      t.reg 14 = if m then
          (v &&& 0xC1FFFFFF) ||| 0x01000000 |||
            ((0#1 ++ BitVec.ofBool v.msb ++ BitVec.ofBool (v == 0) ++ 0#1 ++
              BitVec.ofBool (v == 0xFFFFFFFF)).setWidth 32 <<< 25)
        else v ||| 0x01000000

/-- A store to an admitted cell makes it hold the word, changes no other cell, and shows the word if the cell is a
display cell; a store to an address that is not admitted, and a load from one, is stuck (20_memory.md section 2; D13,
entry 7; D21, entry 23). -/
def Obligations.StoreThenLoad : Prop :=
  ∀ (s : State) (a v : Word), s.mem.wf →
    (s.admitted a = true → ∃ t, store a v s = .next t ∧ load a t = .next v ∧ (∀ b, b ≠ a → load b t = load b s) ∧
      t.regs = s.regs ∧ t.halted = s.halted ∧ t.cfg = s.cfg ∧ t.polls = s.polls ∧
      t.screen = if displayed s.cfg a.toNat then (a.toNat, v) :: s.screen else s.screen) ∧
      (s.admitted a = false →
        store a v s = .fault (.notAdmitted a) ∧ load a s = .fault (.notAdmitted a))

/-! ### Operands -/

/-- Value, side effect and constants of a source operand in each of the eight modes (44_operands.md section 2; the mode
table is D1, entry 10). -/
def Obligations.SourceOperandModes : Prop :=
  ∀ (s : State) (r : RegNo) (k : Word),
    readSource (.reg r) s = .next (s.reg r, s) ∧
      (∃ t, readSource (.preDec r) s = .next (held r (s.reg r - 1), t) ∧
        OnlyRegister r (held r (s.reg r - 1)) s t) ∧
      (∃ t, readSource (.postInc r) s = .next (s.reg r, t) ∧ OnlyRegister r (held r (s.reg r + 1)) s t) ∧
      readSource (.const r k) s = .next (k + s.reg r, s) ∧
      (s.admitted (s.reg r) = true → readSource (.mem r) s = .next (s.cell (s.reg r), s)) ∧
      (s.admitted (held r (s.reg r - 1)) = true →
        ∃ t, readSource (.memPreDec r) s = .next (s.cell (held r (s.reg r - 1)), t) ∧
          OnlyRegister r (held r (s.reg r - 1)) s t) ∧
      (s.admitted (s.reg r) = true →
        ∃ t, readSource (.memPostInc r) s = .next (s.cell (s.reg r), t) ∧
          OnlyRegister r (held r (s.reg r + 1)) s t) ∧
      (s.admitted (k + s.reg r) = true →
        readSource (.memConst r k) s = .next (s.cell (k + s.reg r), s)) ∧
      (∀ o ∈ [Operand.reg r, .preDec r, .postInc r, .mem r, .memPreDec r, .memPostInc r], o.constants = []) ∧
      (Operand.const r k).constants = [k] ∧ (Operand.memConst r k).constants = [k]

/-- R176, R177, R186, the memory modes whose codes the source gives: a field with mode 110 reads, or stores to, the
cell the register names and then increments the register, without a constant; one with mode 111 owns a constant and
reads the cell at constant plus register. -/
def Obligations.Modes110And111 : Prop :=
  ∀ (table : ModeTable) (f : BitVec 7) (k v : Word) (ks : List Word) (s : State), table.wf → s.mem.wf →
    let r : RegNo := (f.extractLsb' 0 4).toFin
    (f.extractLsb' 4 3 = 6#3 → ∃ o, operandOfField table f ks = .ok (o, ks) ∧
      (s.admitted (s.reg r) = true →
        (∃ t, readSource o s = .next (s.cell (s.reg r), t) ∧ OnlyRegister r (held r (s.reg r + 1)) s t) ∧
          ∃ t, writeDest o v s = .next t ∧ OnlyCell (s.reg r) v s t ∧
            ∀ j, t.reg j = if j = r then held r (s.reg r + 1) else s.reg j)) ∧
      (f.extractLsb' 4 3 = 7#3 → ∃ o, operandOfField table f (k :: ks) = .ok (o, ks) ∧
        (s.admitted (k + s.reg r) = true → readSource o s = .next (s.cell (k + s.reg r), s)))

/-- What a destination operand in each form but `--Rxx` and `#c[Rxx]` writes, its side effect, and that nothing else
changes but the screen where a display cell is stored to (44_operands.md section 3; the mode table is D1, entry 10). -/
def Obligations.DestinationOperandModes : Prop :=
  ∀ (s : State) (r : RegNo) (k v : Word), s.mem.wf →
    (∃ t, writeDest (.reg r) v s = .next t ∧ OnlyRegister r (held r v) s t) ∧
      (∃ t, writeDest (.postInc r) v s = .next t ∧ OnlyRegister r (held r (held r v + 1)) s t) ∧
      (s.admitted (s.reg r) = true →
        ∃ t, writeDest (.mem r) v s = .next t ∧ OnlyCell (s.reg r) v s t ∧ ∀ j, t.reg j = s.reg j) ∧
      (s.admitted (held r (s.reg r - 1)) = true →
        ∃ t, writeDest (.memPreDec r) v s = .next t ∧ OnlyCell (held r (s.reg r - 1)) v s t ∧
          ∀ j, t.reg j = if j = r then held r (s.reg r - 1) else s.reg j) ∧
      (s.admitted (s.reg r) = true →
        ∃ t, writeDest (.memPostInc r) v s = .next t ∧ OnlyCell (s.reg r) v s t ∧
          ∀ j, t.reg j = if j = r then held r (s.reg r + 1) else s.reg j) ∧
      (s.admitted (k + s.reg r) = true →
        ∃ t, writeDest (.memConst r k) v s = .next t ∧ OnlyCell (k + s.reg r) v s t ∧ ∀ j, t.reg j = s.reg j)

/-- `--Rxx` as a destination has the net effect of `Rxx` (44_operands.md section 3, mode 001; D1). -/
def Obligations.PreDecrementDestinationIsRegister : Prop :=
  ∀ (s : State) (r : RegNo) (v : Word), writeDest (.preDec r) v s = writeDest (.reg r) v s

/-- An executed ALU or shift instruction whose destination is in mode 011 is refused by name, before anything else
happens (30_encoding.md section 5, D2; that it comes first is entry 11). -/
def Obligations.DestinationMode011IsRefused : Prop :=
  ∀ (cond : Cond) (c m : Bool) (r : RegNo) (k : Word) (s0 s1 : Operand) (s : State), s.meets cond = true →
    ∀ i ∈ aluInstrs cond c m (.const r k) s0 s1 ++ shiftInstrs cond m (.const r k) s0 s1,
      exec i s = .refused .destMode011

/-! ### ALU instructions -/

/-- R81: the sixteen opcodes in bits 24:21 with bit 27 clear, and what each instruction puts in the destination, without
carry-in and flag update, on register operands (the other forms: the sixteen result statements below). -/
def Obligations.AluOpcodeTable : Prop :=
  ∀ (table : ModeTable) (cond : Cond) (rd r0 r1 : RegNo) (s : State), s.meets cond = true →
    let t := s.advance 1
    ∀ row ∈ aluTable cond (.reg rd) (.reg r0) (.reg r1) (t.reg r0) (t.reg r1),
      (row.2.1.word table).extractLsb' 21 4 = row.1 ∧ (row.2.1.word table)[27] = false ∧
        exec row.2.1 s = .next (t.writeReg rd row.2.2)

/-- MOVE with its C and M bits (41_alu.md section 2; carry-in D7, C and V D8): C' only when the carry-in meets
0xFFFFFFFF, V' only when it meets 0x7FFFFFFF. -/
def Obligations.MoveResult : Prop :=
  ∀ (cond : Cond) (c m : Bool) (d s0 s1 : Operand) (s : State), s.meets cond = true →
    operandsReady d s0 s1 s = true →
    let a := value0 d s0 s1 s
    AluAnswers (.move cond c m d s0 s1) m d s0 s1 s
      ⟨a + BitVec.ofNat 32 (cin c s), cin c s == 1 && a == 0xFFFFFFFF, cin c s == 1 && a == 0x7FFFFFFF⟩

/-- SUB with its C and M bits (41_alu.md section 2; D7, D8): s0 - s1 + carry-in; C' says that the exact unsigned result
does not fit, V' that the exact signed one does not; with SUB_CARRY_IS_BORROW false C' says that there is no borrow. -/
def Obligations.SubResult : Prop :=
  ∀ (cond : Cond) (c m : Bool) (d s0 s1 : Operand) (s : State), s.meets cond = true →
    operandsReady d s0 s1 s = true →
    let a := value0 d s0 s1 s
    let b := value1 d s0 s1 s
    AluAnswers (.sub cond c m d s0 s1) m d s0 s1 s
      ⟨a - b + BitVec.ofNat 32 (cin c s),
        if s.cfg.subCarryIsBorrow then
          decide (a.toNat + cin c s < b.toNat) || decide (b.toNat + 2 ^ 32 ≤ a.toNat + cin c s)
        else decide (b.toNat ≤ a.toNat + cin c s),
        decide (a.toInt + (cin c s : Int) < b.toInt - 2 ^ 31) ||
          decide (b.toInt + 2 ^ 31 ≤ a.toInt + (cin c s : Int))⟩

/-- MDBL with its C and M bits (41_alu.md section 2; D7, D8): s0 + (s0 && s1) + carry-in, flags of that addition. -/
def Obligations.MdblResult : Prop :=
  ∀ (cond : Cond) (c m : Bool) (d s0 s1 : Operand) (s : State), s.meets cond = true →
    operandsReady d s0 s1 s = true →
    let a := value0 d s0 s1 s
    let b := value0 d s0 s1 s &&& value1 d s0 s1 s
    let r := a + b + BitVec.ofNat 32 (cin c s)
    AluAnswers (.mdbl cond c m d s0 s1) m d s0 s1 s
      ⟨r, decide (2 ^ 32 ≤ a.toNat + b.toNat + cin c s), a.msb == b.msb && r.msb != a.msb⟩

/-- ADD with its C and M bits (41_alu.md section 2; D7, D8): s0 + s1 + carry-in; C' is the carry out of bit 31, V' that
operands of one sign give a result of the other. -/
def Obligations.AddResult : Prop :=
  ∀ (cond : Cond) (c m : Bool) (d s0 s1 : Operand) (s : State), s.meets cond = true →
    operandsReady d s0 s1 s = true →
    let a := value0 d s0 s1 s
    let b := value1 d s0 s1 s
    let r := a + b + BitVec.ofNat 32 (cin c s)
    AluAnswers (.add cond c m d s0 s1) m d s0 s1 s
      ⟨r, decide (2 ^ 32 ≤ a.toNat + b.toNat + cin c s), a.msb == b.msb && r.msb != a.msb⟩

/-- DBL with its C and M bits (41_alu.md section 2; D7, D8): twice s0 plus the carry-in; C' is bit 31 of s0 and V' says
that bits 31 and 30 of s0 differ, with or without carry-in. -/
def Obligations.DblResult : Prop :=
  ∀ (cond : Cond) (c m : Bool) (d s0 s1 : Operand) (s : State), s.meets cond = true →
    operandsReady d s0 s1 s = true →
    let a := value0 d s0 s1 s
    AluAnswers (.dbl cond c m d s0 s1) m d s0 s1 s
      ⟨2 * a + BitVec.ofNat 32 (cin c s), a[31], a[31] != a[30]⟩

/-- DEC with its C and M bits (41_alu.md section 2; D7, D8): s0 - 1 + carry-in; the borrow is s0 = 0 without carry-in, V'
is s0 = 0x80000000 without carry-in; with SUB_CARRY_IS_BORROW false C' is the negated borrow. -/
def Obligations.DecResult : Prop :=
  ∀ (cond : Cond) (c m : Bool) (d s0 s1 : Operand) (s : State), s.meets cond = true →
    operandsReady d s0 s1 s = true →
    let a := value0 d s0 s1 s
    AluAnswers (.dec cond c m d s0 s1) m d s0 s1 s
      ⟨a - 1 + BitVec.ofNat 32 (cin c s), (a == 0 && cin c s == 0) == s.cfg.subCarryIsBorrow,
        a == 0x80000000 && cin c s == 0⟩

/-- NOT, NOR, IAND, NAND, XOR, IOR, XNOR, AND and OR with their C and M bits (41_alu.md section 2; D7, D8): the logic
result plus the carry-in; C' and V' only when the carry-in carries out of the word or its signed reading. -/
def Obligations.LogicResults : Prop :=
  ∀ (cond : Cond) (c m : Bool) (d s0 s1 : Operand) (s : State), s.meets cond = true →
    operandsReady d s0 s1 s = true →
    ∀ row ∈ logicTable cond c m d s0 s1 (value0 d s0 s1 s) (value1 d s0 s1 s),
      AluAnswers row.1 m d s0 s1 s
        ⟨row.2 + BitVec.ofNat 32 (cin c s), cin c s == 1 && row.2 == 0xFFFFFFFF,
          cin c s == 1 && row.2 == 0x7FFFFFFF⟩

/-- ONE with its C and M bits (41_alu.md section 2; D7, D8): 1 plus the carry-in; with M set all five flags are clear. -/
def Obligations.OneResult : Prop :=
  ∀ (cond : Cond) (c m : Bool) (d s0 s1 : Operand) (s : State), s.meets cond = true →
    operandsReady d s0 s1 s = true →
    ∃ t, exec (.one cond c m d s0 s1) s = .next t ∧
      (m = false → t = destState d (if c && s.flag .c then 2 else 1) (sourcesRead d s0 s1 s)) ∧
      (m = true → t = (destState d (if c && s.flag .c then 2 else 1) (sourcesRead d s0 s1 s)).writeReg 14
        ((destState d (if c && s.flag .c then 2 else 1) (sourcesRead d s0 s1 s)).reg 14 &&& 0xC1FFFFFF))

/-- The flag write of an ALU instruction (41_alu.md section 1): with M set it makes bits 29:25 of R14 V', N', Z', C', X'
and touches nothing else; with M clear nothing happens. -/
def Obligations.AluFlagWrite : Prop :=
  ∀ (s : State) (out : AluOut),
    OnlyRegister 14
        ((s.reg 14 &&& 0xC1FFFFFF) |||
          ((BitVec.ofBool out.overflow ++ BitVec.ofBool out.result.msb ++ BitVec.ofBool (out.result == 0) ++
            BitVec.ofBool out.carry ++ BitVec.ofBool (out.result == 0xFFFFFFFF)).setWidth 32 <<< 25))
        s (s.aluFlags true out) ∧
      s.aluFlags false out = s

/-- The frame of the sixteen ALU instructions when they execute: `OperandFrame`, and of R14 nothing changes unless an
operand writes it or M is set, and then only bits 29:25 unless an operand writes it (10_state.md sections 2 to 4,
41_alu.md section 1). -/
def Obligations.AluFrame : Prop :=
  ∀ (cond : Cond) (c m : Bool) (d s0 s1 : Operand) (s t : State), s.meets cond = true →
    ∀ i ∈ aluInstrs cond c m d s0 s1, exec i s = .next t →
      OperandFrame d s0 s1 s t ∧
        (¬ operandWrites d s0 s1 14 → ∀ n, (m = false ∨ n < 25 ∨ 29 < n) →
          (t.reg 14).getLsbD n = (s.reg 14).getLsbD n)

/-- With every 32-bit address admitted, an ALU instruction whose destination is a place always completes, whatever its
operands hold: no arithmetic traps (41_alu.md sections 1 and 3). -/
def Obligations.AluCompletesWithFullMemory : Prop :=
  ∀ (cond : Cond) (c m : Bool) (d s0 s1 : Operand) (s : State), s.cfg.memWords = 2 ^ 32 → d.isPlace = true →
    ∀ i ∈ aluInstrs cond c m d s0 s1, ∃ t, exec i s = .next t

/-! ### Shift instructions -/

/-- The sixteen shifts by their SHIFT_TABLE entry (42_shift.md, the general rule; one position is D10, the table D11): a
shift whose entry is known completes with the word shifted by one place, the fill bit entering and the other end's bit
leaving. -/
def Obligations.ShiftByTableEntry : Prop :=
  ∀ (cond : Cond) (m : Bool) (d s0 s1 : Operand) (s : State) (desc : ShiftDesc), s.meets cond = true →
    operandsReady d s0 s1 s = true →
    ∀ row ∈ shiftRows cond m d s0 s1, s.cfg.shiftTable[row.1.toFin] = some desc →
      let v := value0 d s0 s1 s
      let f : Bool := match desc.fill with
        | .zero => false
        | .carry => (s.reg 14)[26]
        | .other k => Config.otherFill k s.regs.toList s.mem
      let result : Word := match desc.dir with
        | .right => (v >>> 1) ||| (if f then 0x80000000 else 0)
        | .left => (v <<< 1) ||| (if f then 1 else 0)
      let out : Bool := match desc.dir with
        | .right => v[0]
        | .left => v.msb
      exec row.2 s = .next ((destState d result (sourcesRead d s0 s1 s)).shiftFlags m desc.sink result out)

/-- A shift whose entry is `0<0` (42_shift.md; one position and V cleared are D10, entry 19) puts trunc32(2 * u(v0)) in
the destination and does not write C; with M clear it changes no flag at all. -/
def Obligations.ZeroLeftZeroShift : Prop :=
  ∀ (cond : Cond) (m : Bool) (d s0 s1 : Operand) (s : State), s.meets cond = true →
    operandsReady d s0 s1 s = true →
    ∀ row ∈ shiftRows cond m d s0 s1, s.cfg.shiftTable[row.1.toFin] = some ShiftDesc.zeroLeftZero →
      let result := BitVec.ofNat 32 (2 * (value0 d s0 s1 s).toNat)
      let u := destState d result (sourcesRead d s0 s1 s)
      ∃ t, exec row.2 s = .next t ∧ (t.reg 14)[26] = (u.reg 14)[26] ∧ (m = false → t = u) ∧
        (m = true → OnlyRegister 14
          ((u.reg 14 &&& 0xC5FFFFFF) |||
            ((0#1 ++ BitVec.ofBool result.msb ++ BitVec.ofBool (result == 0) ++ 0#1 ++
              BitVec.ofBool (result == 0xFFFFFFFF)).setWidth 32 <<< 25)) u t)

/-- A shift whose entry is `C>C` (42_shift.md; one position and V cleared are D10, entry 19) puts C, then bits 31:1 of
the source, in the destination, and writes bit 0 of the source into C with the M bit set or clear. -/
def Obligations.CarryRightCarryShift : Prop :=
  ∀ (cond : Cond) (m : Bool) (d s0 s1 : Operand) (s : State), s.meets cond = true →
    operandsReady d s0 s1 s = true →
    ∀ row ∈ shiftRows cond m d s0 s1, s.cfg.shiftTable[row.1.toFin] = some ShiftDesc.carryRightCarry →
      let v := value0 d s0 s1 s
      let result : Word := (v >>> 1) ||| (if (s.reg 14)[26] then 0x80000000 else 0)
      let u := destState d result (sourcesRead d s0 s1 s)
      ∃ t, exec row.2 s = .next t ∧ (t.reg 14)[26] = v[0] ∧
        (∀ j, j ≠ 14 → t.reg j = u.reg j) ∧ t.mem = u.mem ∧
        (∀ n, n ≠ 26 → (m = false ∨ n < 25 ∨ 29 < n) → (t.reg 14).getLsbD n = (u.reg 14).getLsbD n) ∧
        (m = true → (t.reg 14)[28] = result.msb ∧ (t.reg 14)[27] = (result == 0) ∧
          (t.reg 14)[25] = (result == 0xFFFFFFFF) ∧ (t.reg 14)[29] = false)

/-- On a platform that knows all sixteen shifts `0<0` and `C>C` are among them (42_shift.md on the sixteen opcodes, D11):
there is an opcode for each, and its instruction, with every condition and operands that can complete, puts the source
shifted left by one place in the destination and discards bit 31, or C and then bits 31:1 of the source, with bit 0
going to C (one position and V cleared are D10, entry 19). -/
def Obligations.KnownShiftTableHasBothShifts : Prop :=
  ∀ s : State, s.cfg.wf → (∀ op : Fin 16, s.cfg.shiftTable[op] ≠ none) →
    ∃ left right : BitVec 4, s.cfg.shiftTable[left.toFin] = some ShiftDesc.zeroLeftZero ∧
      s.cfg.shiftTable[right.toFin] = some ShiftDesc.carryRightCarry ∧
      ∀ (cond : Cond) (m : Bool) (d s0 s1 : Operand), s.meets cond = true → operandsReady d s0 s1 s = true →
        let v := value0 d s0 s1 s
        let doubled : Word := v <<< 1
        let rotated : Word := (v >>> 1) ||| (if (s.reg 14)[26] then 0x80000000 else 0)
        (∃ i, (left, i) ∈ shiftRows cond m d s0 s1 ∧
          exec i s = .next ((destState d doubled (sourcesRead d s0 s1 s)).shiftFlags m .discard doubled v.msb)) ∧
          ∃ i, (right, i) ∈ shiftRows cond m d s0 s1 ∧
            exec i s = .next ((destState d rotated (sourcesRead d s0 s1 s)).shiftFlags m .carry rotated v[0])

/-- `C>C` applied 33 times restores the word and C (42_shift.md on `C>C`, derived there). -/
def Obligations.RotateThroughCarryRestores : Prop := ∀ p : Word × Bool, rotateOnce^[33] p = p

/-- An executed shift whose SHIFT_TABLE entry is unknown is refused by name (42_shift.md on the sixteen opcodes, D11); in
the state after reset every entry is unknown. -/
def Obligations.UnknownShiftIsRefused : Prop :=
  (∀ (cond : Cond) (m : Bool) (d s0 s1 : Operand) (s : State), s.meets cond = true → d.isPlace = true →
    ∀ row ∈ shiftRows cond m d s0 s1, s.cfg.shiftTable[row.1.toFin] = none →
      exec row.2 s = .refused (.shiftOpcodeUnknown row.1)) ∧
    ∀ op : Fin 16, State.reset.cfg.shiftTable[op] = none

/-- The frame of the sixteen shifts when they execute: `OperandFrame`, and of R14, unless an operand writes it, only
bits 29:25 change with M set and only C (bit 26) with M clear, and C only where the entry's sink is the carry
(10_state.md sections 2 to 4, 42_shift.md on the status bits, D10). -/
def Obligations.ShiftFrame : Prop :=
  ∀ (cond : Cond) (m : Bool) (d s0 s1 : Operand) (s t : State), s.meets cond = true →
    ∀ row ∈ shiftRows cond m d s0 s1, exec row.2 s = .next t →
      OperandFrame d s0 s1 s t ∧
        (¬ operandWrites d s0 s1 14 →
          (∀ n, n ≠ 26 → (m = false ∨ n < 25 ∨ 29 < n) → (t.reg 14).getLsbD n = (s.reg 14).getLsbD n) ∧
            (∀ desc, s.cfg.shiftTable[row.1.toFin] = some desc → desc.sink = .discard →
              (t.reg 14)[26] = (s.reg 14)[26]))

/-! ### HALT and the whole machine -/

/-- R160: an executed HALT sets `halted`, R15 is past its one cell, no other register and no memory changes (whatever
bits 25:0 hold, which have no meaning: R75). -/
def Obligations.HaltInstructionStops : Prop :=
  ∀ (cond : Cond) (rest : BitVec 26) (s : State), s.meets cond = true →
    ∃ t, exec (.halt cond rest) s = .next t ∧ t.halted = true ∧
      (∀ j, t.reg j = if j = 15 then s.reg 15 + 1 else s.reg j) ∧ t.mem = s.mem ∧ t.screen = s.screen ∧
      t.cfg = s.cfg ∧ t.polls = s.polls

/-- Execution of a word with bits 27:26 = 11, whatever its other bits: the machine halts if the condition holds and R15
moves by one either way (43_halt.md; that bits 25:0 are ignored is D12). With IRQ `never` that is the step (entry 21). -/
def Obligations.StepOnHaltWord : Prop :=
  ∀ s : State, s.halted = false → s.admitted (s.reg 15) = true →
    let w := s.cell (s.reg 15)
    w[27] = true → w[26] = true →
    ∃ t, cycle none s = .next t ∧ (s.cfg.irq = .never → step s = .next t) ∧
      t.halted = ((s.reg 14).getLsbD (24 + (w.extractLsb' 28 3).toNat) ^^ w[31]) ∧
      (∀ j, t.reg j = if j = 15 then s.reg 15 + 1 else s.reg j) ∧ t.mem = s.mem

/-- Nothing but an executed HALT halts the machine (10_state.md section 5, 70_reset_and_hazards.md section 2). -/
def Obligations.OnlyHaltHalts : Prop :=
  ∀ (i : Instr) (s t : State), exec i s = .next t → s.halted = false → t.halted = true →
    ∃ cond rest, i = .halt cond rest ∧ s.meets cond = true

/-- Writing R15 is a jump: MOVE to R15 goes to its source, to one more with `R15++`, and `ADD R15, R15, #n` to n past the
next instruction (41_alu.md section 3, 44_operands.md section 4; D3). -/
def Obligations.JumpsGoToResult : Prop :=
  (∀ (cond : Cond) (m : Bool) (s0 s1 : Operand) (s : State), s.meets cond = true →
    (operandsReady (.reg 15) s0 s1 s = true →
      ∃ t, exec (.move cond false m (.reg 15) s0 s1) s = .next t ∧ t.reg 15 = value0 (.reg 15) s0 s1 s) ∧
    (operandsReady (.postInc 15) s0 s1 s = true →
      ∃ t, exec (.move cond false m (.postInc 15) s0 s1) s = .next t ∧
        t.reg 15 = value0 (.postInc 15) s0 s1 s + 1)) ∧
    ∀ (cond : Cond) (m : Bool) (n : Word) (s : State), s.meets cond = true →
      ∃ t, exec (.add cond false m (.reg 15) (.reg 15) (.const 0 n)) s = .next t ∧ t.reg 15 = s.reg 15 + 2 + n

/-- The order of operands seen through one register that holds x, neither R0 nor R14 nor R15: `ADD Rr++, Rr++, Rr++`
leaves 2 x + 2, and `SUB Rr++, Rr++, Rr++` leaves 2, since source 1 reads x and then source 0 reads x + 1
(44_operands.md section 4, D4, entry 13). -/
def Obligations.RepeatedRegisterOrder : Prop :=
  ∀ (r : RegNo) (s : State) (cond : Cond) (m : Bool), r ≠ 0 → r ≠ 14 → r ≠ 15 → s.meets cond = true →
    (∃ t, exec (.add cond false m (.postInc r) (.postInc r) (.postInc r)) s = .next t ∧
      t.reg r = 2 * s.reg r + 2 ∧ t.reg 15 = s.reg 15 + 1) ∧
      ∃ t, exec (.sub cond false m (.postInc r) (.postInc r) (.postInc r)) s = .next t ∧
        t.reg r = 2 ∧ t.reg 15 = s.reg 15 + 1

/-- A step is refused only where the instruction at R15 is executed and either its destination is in the constant form,
mode 011, or it is a shift whose opcode has no known SHIFT_TABLE entry (60_exceptions.md section 1, D18, entry 26; that
no other refusal comes is entry 33). -/
def Obligations.RefusalsAreTheTwoNamed : Prop :=
  ∀ (s : State) (r : Refusal), step s = .refused r →
    ∃ i rest d s0 s1, decode s.cfg.modeTable (cellsAtPc s) = .ok (i, rest) ∧ s.meets i.cond = true ∧
      i.operands = some (d, s0, s1) ∧
      ((r = .destMode011 ∧ d.form = .const) ∨
        ∃ op m, r = .shiftOpcodeUnknown op ∧ (op, i) ∈ shiftRows i.cond m d s0 s1 ∧
          s.cfg.shiftTable[op.toFin] = none)

/-- No step changes the parameters of the platform (00_scope.md sections 4 and 5; that they stand in the state is the
model's choice, entry 2). -/
def Obligations.ParametersNeverChange : Prop := ∀ s t : State, step s = .next t → t.cfg = s.cfg

/-- Every step keeps the invariant: parameters within limits (those of SHIFT_TABLE and MODE_TABLE: entries 8 and 10),
memory in canonical form within MEM_WORDS, the stored bit 24 of R14 set, only display cells shown (10_state.md,
20_memory.md; the canonical form is the model's, entry 6). -/
def Obligations.StepKeepsInvariant : Prop := ∀ s t : State, s.Inv → step s = .next t → t.Inv

/-- The invariant holds where a run starts, on every platform whose parameters are within the spec's limits, and after
reset. -/
def Obligations.StartHasInvariant : Prop := (∀ c : Config, c.wf → (State.start c).Inv) ∧ State.reset.Inv

/-- The start state (10_state.md section 6, D16): R15 = ENTRY, bit 24 of R14 set, not halted. R1 to R13, the other bits
of R14 and every cell are zero by the model's choice (entries 4 and 6), and ENTRY is 0 at reset (entry 5). -/
def Obligations.StartState : Prop :=
  ∀ c : Config, (State.start c).reg 15 = c.entry ∧ (State.start c).reg 14 = 0x01000000 ∧
    (State.start c).halted = false ∧ (∀ j : RegNo, j ≠ 14 → j ≠ 15 → (State.start c).reg j = 0) ∧
    (∀ a, (State.start c).cell a = 0) ∧ State.reset.reg 15 = 0

/-! ### Interrupt entry, as far as the source gives it -/

/-- R201, R202: interrupt entry copies R15 to R13 and sets I, which a write to R14 clears; nothing is pushed to memory,
and no other register is saved: none but R13, R14 and R15 changes. -/
def Obligations.InterruptEntry : Prop :=
  ∀ s t : State, s.takeInterrupt = .next t →
    t.reg 13 = s.reg 15 ∧ (t.reg 14)[31] = true ∧
      (∀ v : Word, v[31] = false → ((t.writeReg 14 v).reg 14)[31] = false) ∧
      t.mem = s.mem ∧ ∀ j : RegNo, j ≠ 13 → j ≠ 14 → j ≠ 15 → t.reg j = s.reg j

/-- The frame of interrupt entry, whatever the free values of entry 22 are: besides R13, R14 and R15 no register
changes, and of R14 only I and M (60_exceptions.md section 2; that the unmentioned bits stay is entry 21). -/
def Obligations.InterruptEntryFrame : Prop :=
  ∀ s t : State, s.takeInterrupt = .next t →
    (∀ j : RegNo, j ≠ 13 → j ≠ 14 → j ≠ 15 → t.reg j = s.reg j) ∧
      (∀ n, n ≠ 30 → n ≠ 31 → (t.reg 14).getLsbD n = (s.reg 14).getLsbD n) ∧
      t.mem = s.mem ∧ t.screen = s.screen ∧ t.halted = s.halted ∧ t.cfg = s.cfg ∧ t.polls = s.polls

/-- Return from an interrupt routine: `MOVE R15, R13` is the return operation, and right after an entry it brings R15
back to where it was (60_exceptions.md section 2, derived there). -/
def Obligations.InterruptReturn : Prop :=
  ∀ s : State, (∀ t, s.takeInterrupt = .next t → t.returnFromInterrupt.reg 15 = s.reg 15) ∧
    exec (.move ⟨false, .always⟩ false false (.reg 15) (.reg 13) (.reg 0)) s = .next s.returnFromInterrupt

/-- Which requests are accepted (60_exceptions.md R202, R203, R209): a maskable one only while M is set; one of the other
kind whatever M holds. While I is clear nothing else blocks either kind (the model's choice, entry 21), and while it is
set that is a free value (entry 22). -/
def Obligations.InterruptAcceptance : Prop :=
  ∀ s : State, (s.acceptsInterrupt .maskable = true → (s.reg 14)[30] = true) ∧
    (∀ t : State, t.flag .i = s.flag .i → t.polls = s.polls →
      t.acceptsInterrupt .nonMaskable = s.acceptsInterrupt .nonMaskable) ∧
    ((s.reg 14)[31] = false →
      s.acceptsInterrupt .maskable = (s.reg 14)[30] ∧ s.acceptsInterrupt .nonMaskable = true)

/-- Interrupts in the step (60_exceptions.md R206, R208; D17, entry 21): with IRQ `never` none is taken, and a running
machine otherwise takes a request it accepts before its next fetch; entry completes where every address is admitted,
and only an address that is not admitted stops it (entry 22). -/
def Obligations.InterruptStep : Prop :=
  ∀ s : State, (s.cfg.irq = .never → s.request = none ∧ s.polled = s) ∧
    (s.halted = false → step s = cycle s.request s.polled) ∧
    (∀ kind, s.acceptsInterrupt kind = true → cycle (some kind) s = s.takeInterrupt) ∧
    (s.cfg.memWords = 2 ^ 32 → ∃ t, s.takeInterrupt = .next t) ∧
    (∀ a, s.takeInterrupt = .fault (.notAdmitted a) → s.admitted a = false)

/-! ### Stops at an operand's address -/

/-- An executed ALU instruction, or shift with a known entry, whose source 1, source 0 or destination names a cell that is
not admitted is stuck at the first such operand in the order of evaluation (20_memory.md sections 1 and 2; D13,
entry 7; the order is D4, entry 13). -/
def Obligations.UnadmittedOperandIsStuck : Prop :=
  ∀ (cond : Cond) (c m : Bool) (d s0 s1 : Operand) (s : State) (i : Instr) (a : Word), s.meets cond = true →
    d.isPlace = true →
    (i ∈ aluInstrs cond c m d s0 s1 ∨
      ∃ row ∈ shiftRows cond m d s0 s1, row.2 = i ∧ s.cfg.shiftTable[row.1.toFin] ≠ none) →
    s.admitted a = false →
    (loadAddress s1 (operandState d s0 s1 s) = some a ∨
      (operandReady s1 (operandState d s0 s1 s) = true ∧
        loadAddress s0 (sourceState s1 (operandState d s0 s1 s)) = some a) ∨
      (operandReady s1 (operandState d s0 s1 s) = true ∧
        operandReady s0 (sourceState s1 (operandState d s0 s1 s)) = true ∧ storeAddress d s0 s1 s = some a)) →
    exec i s = .fault (.notAdmitted a)
end

