-- ==== Sys2Proof/Laws/State.lean ====
section
/-! SUPPORT. One lemma per field of State for each update, so that no later proof unfolds a record update; and what
reading a register gives after a write. -/

namespace Sys2Proof.Machine

variable (s : State)

/-! ### Register writes -/

@[simp] theorem State.regs_writeReg (i : RegNo) (v : Word) : (s.writeReg i v).regs = writtenRegs s.regs i v := rfl
@[simp] theorem State.mem_writeReg (i : RegNo) (v : Word) : (s.writeReg i v).mem = s.mem := rfl
@[simp] theorem State.halted_writeReg (i : RegNo) (v : Word) : (s.writeReg i v).halted = s.halted := rfl
@[simp] theorem State.screen_writeReg (i : RegNo) (v : Word) : (s.writeReg i v).screen = s.screen := rfl
@[simp] theorem State.cfg_writeReg (i : RegNo) (v : Word) : (s.writeReg i v).cfg = s.cfg := rfl
@[simp] theorem State.polls_writeReg (i : RegNo) (v : Word) : (s.writeReg i v).polls = s.polls := rfl

/-! ### Cell writes -/

@[simp] theorem State.regs_writeCell (a v : Word) : (s.writeCell a v).regs = s.regs := rfl
@[simp] theorem State.mem_writeCell (a v : Word) : (s.writeCell a v).mem = s.mem.write a.toNat v := rfl
@[simp] theorem State.halted_writeCell (a v : Word) : (s.writeCell a v).halted = s.halted := rfl
@[simp] theorem State.screen_writeCell (a v : Word) : (s.writeCell a v).screen = s.screenAfter a v := rfl
@[simp] theorem State.cfg_writeCell (a v : Word) : (s.writeCell a v).cfg = s.cfg := rfl
@[simp] theorem State.polls_writeCell (a v : Word) : (s.writeCell a v).polls = s.polls := rfl
@[simp] theorem State.reg_writeCell (a v : Word) (i : RegNo) : (s.writeCell a v).reg i = s.reg i := rfl

/-! ### Halting -/

@[simp] theorem State.regs_halt : s.halt.regs = s.regs := rfl
@[simp] theorem State.mem_halt : s.halt.mem = s.mem := rfl
@[simp] theorem State.halted_halt : s.halt.halted = true := rfl
@[simp] theorem State.screen_halt : s.halt.screen = s.screen := rfl
@[simp] theorem State.cfg_halt : s.halt.cfg = s.cfg := rfl
@[simp] theorem State.polls_halt : s.halt.polls = s.polls := rfl
@[simp] theorem State.reg_halt (i : RegNo) : s.halt.reg i = s.reg i := rfl

/-! ### Advancing R15 -/

@[simp] theorem State.mem_advance (n : Nat) : (s.advance n).mem = s.mem := rfl
@[simp] theorem State.halted_advance (n : Nat) : (s.advance n).halted = s.halted := rfl
@[simp] theorem State.screen_advance (n : Nat) : (s.advance n).screen = s.screen := rfl
@[simp] theorem State.cfg_advance (n : Nat) : (s.advance n).cfg = s.cfg := rfl
@[simp] theorem State.polls_advance (n : Nat) : (s.advance n).polls = s.polls := rfl

/-! ### Status bits -/

@[simp] theorem State.mem_setFlag (f : StatusBit) (b : Bool) : (s.setFlag f b).mem = s.mem := rfl
@[simp] theorem State.halted_setFlag (f : StatusBit) (b : Bool) : (s.setFlag f b).halted = s.halted := rfl
@[simp] theorem State.screen_setFlag (f : StatusBit) (b : Bool) : (s.setFlag f b).screen = s.screen := rfl
@[simp] theorem State.cfg_setFlag (f : StatusBit) (b : Bool) : (s.setFlag f b).cfg = s.cfg := rfl
@[simp] theorem State.polls_setFlag (f : StatusBit) (b : Bool) : (s.setFlag f b).polls = s.polls := rfl

@[simp] theorem State.mem_setResultFlags (r : Word) : (s.setResultFlags r).mem = s.mem := rfl
@[simp] theorem State.halted_setResultFlags (r : Word) : (s.setResultFlags r).halted = s.halted := rfl
@[simp] theorem State.screen_setResultFlags (r : Word) : (s.setResultFlags r).screen = s.screen := rfl
@[simp] theorem State.cfg_setResultFlags (r : Word) : (s.setResultFlags r).cfg = s.cfg := rfl
@[simp] theorem State.polls_setResultFlags (r : Word) : (s.setResultFlags r).polls = s.polls := rfl

@[simp] theorem State.mem_aluFlags (m : Bool) (o : AluOut) : (s.aluFlags m o).mem = s.mem := by cases m <;> rfl
@[simp] theorem State.halted_aluFlags (m : Bool) (o : AluOut) : (s.aluFlags m o).halted = s.halted := by
  cases m <;> rfl
@[simp] theorem State.screen_aluFlags (m : Bool) (o : AluOut) : (s.aluFlags m o).screen = s.screen := by
  cases m <;> rfl
@[simp] theorem State.cfg_aluFlags (m : Bool) (o : AluOut) : (s.aluFlags m o).cfg = s.cfg := by cases m <;> rfl
@[simp] theorem State.polls_aluFlags (m : Bool) (o : AluOut) : (s.aluFlags m o).polls = s.polls := by cases m <;> rfl

variable (m : Bool) (k : ShiftSink) (r : Word) (b : Bool)

@[simp] theorem State.mem_shiftFlags : (s.shiftFlags m k r b).mem = s.mem := by cases m <;> cases k <;> rfl
@[simp] theorem State.halted_shiftFlags : (s.shiftFlags m k r b).halted = s.halted := by
  cases m <;> cases k <;> rfl
@[simp] theorem State.screen_shiftFlags : (s.shiftFlags m k r b).screen = s.screen := by
  cases m <;> cases k <;> rfl
@[simp] theorem State.cfg_shiftFlags : (s.shiftFlags m k r b).cfg = s.cfg := by cases m <;> cases k <;> rfl
@[simp] theorem State.polls_shiftFlags : (s.shiftFlags m k r b).polls = s.polls := by cases m <;> cases k <;> rfl

/-! ### Operand side effects -/

@[simp] theorem mem_preDecrement (o : Operand) : (preDecrement o s).mem = s.mem := by cases o <;> rfl
@[simp] theorem halted_preDecrement (o : Operand) : (preDecrement o s).halted = s.halted := by cases o <;> rfl
@[simp] theorem screen_preDecrement (o : Operand) : (preDecrement o s).screen = s.screen := by cases o <;> rfl
@[simp] theorem cfg_preDecrement (o : Operand) : (preDecrement o s).cfg = s.cfg := by cases o <;> rfl
@[simp] theorem polls_preDecrement (o : Operand) : (preDecrement o s).polls = s.polls := by cases o <;> rfl
@[simp] theorem mem_postIncrement (o : Operand) : (postIncrement o s).mem = s.mem := by cases o <;> rfl
@[simp] theorem halted_postIncrement (o : Operand) : (postIncrement o s).halted = s.halted := by cases o <;> rfl
@[simp] theorem screen_postIncrement (o : Operand) : (postIncrement o s).screen = s.screen := by cases o <;> rfl
@[simp] theorem cfg_postIncrement (o : Operand) : (postIncrement o s).cfg = s.cfg := by cases o <;> rfl
@[simp] theorem polls_postIncrement (o : Operand) : (postIncrement o s).polls = s.polls := by cases o <;> rfl

/-! ### Looking for an interrupt request -/

@[simp] theorem State.regs_polled : s.polled.regs = s.regs := by unfold State.polled; split <;> rfl
@[simp] theorem State.mem_polled : s.polled.mem = s.mem := by unfold State.polled; split <;> rfl
@[simp] theorem State.halted_polled : s.polled.halted = s.halted := by unfold State.polled; split <;> rfl
@[simp] theorem State.screen_polled : s.polled.screen = s.screen := by unfold State.polled; split <;> rfl
@[simp] theorem State.cfg_polled : s.polled.cfg = s.cfg := by unfold State.polled; split <;> rfl
@[simp] theorem State.reg_polled (i : RegNo) : s.polled.reg i = s.reg i := by unfold State.polled; split <;> rfl

/-- With IRQ `never` the machine does not look for requests, and none is presented (R206). -/
theorem State.polled_of_never (h : s.cfg.irq = .never) : s.polled = s ∧ s.request = none := by
  simp [State.polled, State.request, h]

/-! ### Reading a register -/

@[simp] theorem State.reg_zero : s.reg 0 = 0 := rfl

/-- A written register reads as the value written, R0 as zero, R14 with bit 24 set; every other register as before
(R21, R22). -/
theorem State.reg_writeReg (i j : RegNo) (v : Word) :
    (s.writeReg i v).reg j =
      if j = 0 then 0 else if j = i then (if j = 14 then v ||| alwaysOne else v) else s.reg j := by
  have hj := j.isLt
  simp only [State.reg, State.regs_writeReg, writtenRegs, Fin.ext_iff, Fin.val_zero]
  by_cases hj0 : j.val = 0
  · simp [hj0]
  · by_cases hi0 : i.val = 0
    · have : j.val ≠ i.val := by omega
      simp [hj0, hi0]
    · by_cases hij : j.val = i.val
      · have e : i.val - 1 = j.val - 1 := by omega
        by_cases h14 : i.val = 14
        · simp [hij, h14, BitVec.or_assoc]
        · simp [hij, hi0, h14]
      · have : ¬ i.val - 1 = j.val - 1 := by omega
        simp [hj0, hi0, hij, this]

/-- Writing one register leaves every other as it was. -/
theorem State.reg_writeReg_of_ne {i j : RegNo} (h : j ≠ i) (v : Word) : (s.writeReg i v).reg j = s.reg j := by
  rw [State.reg_writeReg]
  by_cases h0 : j = 0
  · subst h0; simp
  · simp [h0, h]

/-- Bit 24 of R14 reads one in every state (R27). -/
theorem State.reg14_bit24 : (s.reg 14)[24] = true := by
  simp [State.reg, alwaysOne]

/-- Advancing R15 changes no other register. -/
theorem State.reg_advance (n : Nat) (j : RegNo) :
    (s.advance n).reg j = if j = 15 then s.reg 15 + BitVec.ofNat 32 n else s.reg j := by
  rw [State.advance, State.reg_writeReg]
  by_cases h : j = 15
  · subst h; simp
  · by_cases h0 : j = 0
    · subst h0; simp
    · simp [h, h0]

@[simp] theorem State.flag_advance (n : Nat) (f : StatusBit) : (s.advance n).flag f = s.flag f := by
  simp [State.flag, State.reg_advance]

end Sys2Proof.Machine
end

