-- ==== Sys2Proof/Laws/Exec.lean ====
section
/-! SUPPORT. What each shared operation does when it answers a next state, and that it answers one where its operands
are ready: these are cited instead of unfolding the operations. -/

namespace Sys2Proof.Machine

/-! ### Sequencing -/

@[simp] theorem andThen_next {α β : Type} (a : α) (f : α → Result β) : andThen (.next a) f = f a := rfl

/-- A sequence answers a next value exactly if both parts do. -/
theorem andThen_eq_next {α β : Type} {x : Result α} {f : α → Result β} {b : β} :
    andThen x f = .next b ↔ ∃ a, x = .next a ∧ f a = .next b := by
  cases x <;> simp [andThen]

/-! ### Memory accesses -/

theorem load_eq_next {a : Word} {s : State} {v : Word} : load a s = .next v ↔ s.admitted a = true ∧ s.cell a = v := by
  unfold load; split <;> simp_all

theorem store_eq_next {a v : Word} {s t : State} :
    store a v s = .next t ↔ s.admitted a = true ∧ s.writeCell a v = t := by
  unfold store; split <;> simp_all

/-- Which addresses are admitted depends on the parameters alone. -/
theorem State.admitted_congr {s t : State} (h : t.cfg = s.cfg) (a : Word) : t.admitted a = s.admitted a := by
  simp [State.admitted, h]

/-! ### Operands -/

/-- A source operand answers exactly if it is ready, and then its value and its state. -/
theorem readSource_eq_next {o : Operand} {s : State} {v : Word} {t : State} :
    readSource o s = .next (v, t) ↔ operandReady o s = true ∧ v = sourceValue o s ∧ t = sourceState o s := by
  unfold readSource operandReady sourceValue sourceState
  have hadm (a : Word) : (preDecrement o s).admitted a = s.admitted a := State.admitted_congr (by simp) a
  have hcell (a : Word) : (preDecrement o s).cell a = s.cell a := by simp [State.cell]
  cases hA : operandAddress o (preDecrement o s) with
  | none => simp [hA, eq_comm]
  | some a =>
    simp only [hA, load, hadm, hcell]
    cases s.admitted a <;> simp [andThen, eq_comm]

theorem readSource_of_ready {o : Operand} {s : State} (h : operandReady o s = true) :
    readSource o s = .next (sourceValue o s, sourceState o s) := readSource_eq_next.mpr ⟨h, rfl, rfl⟩

/-- A destination operand answers exactly if it is a place and ready, and then its state. -/
theorem writeDest_eq_next {d : Operand} {v : Word} {s t : State} :
    writeDest d v s = .next t ↔ d.isPlace = true ∧ operandReady d s = true ∧ t = destState d v s := by
  unfold writeDest onPlace operandReady destState
  have hadm (a : Word) : (preDecrement d s).admitted a = s.admitted a := State.admitted_congr (by simp) a
  cases d.isPlace with
  | false => simp
  | true =>
    cases hA : operandAddress d (preDecrement d s) with
    | none => simp [hA, eq_comm]
    | some a =>
      simp only [hA, store, hadm]
      cases s.admitted a <;> simp [andThen, eq_comm]

theorem writeDest_of_ready {d : Operand} {s : State} (hp : d.isPlace = true) (hr : operandReady d s = true)
    (v : Word) : writeDest d v s = .next (destState d v s) := writeDest_eq_next.mpr ⟨hp, hr, rfl⟩

@[simp] theorem cfg_sourceState (o : Operand) (s : State) : (sourceState o s).cfg = s.cfg := by simp [sourceState]
@[simp] theorem mem_sourceState (o : Operand) (s : State) : (sourceState o s).mem = s.mem := by simp [sourceState]
@[simp] theorem halted_sourceState (o : Operand) (s : State) : (sourceState o s).halted = s.halted := by
  simp [sourceState]
@[simp] theorem screen_sourceState (o : Operand) (s : State) : (sourceState o s).screen = s.screen := by
  simp [sourceState]
@[simp] theorem cfg_destState (d : Operand) (v : Word) (s : State) : (destState d v s).cfg = s.cfg := by
  unfold destState; split <;> simp
@[simp] theorem halted_destState (d : Operand) (v : Word) (s : State) : (destState d v s).halted = s.halted := by
  unfold destState; split <;> simp

@[simp] theorem polls_sourceState (o : Operand) (s : State) : (sourceState o s).polls = s.polls := by
  simp [sourceState]
@[simp] theorem polls_destState (d : Operand) (v : Word) (s : State) : (destState d v s).polls = s.polls := by
  unfold destState; split <;> simp

/-! ### Whole instructions -/

/-- The sources of an instruction answer exactly if both are ready, source 1 first. -/
theorem withSources_eq_next {s0 s1 : Operand} {s t : State} {f : Word → Word → State → Result State} :
    withSources s0 s1 s f = .next t ↔
      operandReady s1 s = true ∧ operandReady s0 (sourceState s1 s) = true ∧
        f (sourceValue s0 (sourceState s1 s)) (sourceValue s1 s) (sourceState s0 (sourceState s1 s)) = .next t := by
  simp only [withSources, andThen_eq_next, Prod.exists, readSource_eq_next]
  constructor
  · rintro ⟨_, _, ⟨h1, rfl, rfl⟩, _, _, ⟨h0, rfl, rfl⟩, h⟩
    exact ⟨h1, h0, h⟩
  · rintro ⟨h1, h0, h⟩
    exact ⟨_, _, ⟨h1, rfl, rfl⟩, _, _, ⟨h0, rfl, rfl⟩, h⟩

/-- What an ALU instruction does when it answers a next state: skipped, or its full course (R80, R104, R110). -/
theorem execAlu_eq_next {f : Word → Word → Int → AluOut} {cond : Cond} {c m : Bool} {d s0 s1 : Operand}
    {s t : State} :
    execAlu f cond c m d s0 s1 s = .next t ↔
      (s.meets cond = false ∧ t = operandState d s0 s1 s) ∨
        (s.meets cond = true ∧ operandsReady d s0 s1 s = true ∧
          t = (destState d (f (value0 d s0 s1 s) (value1 d s0 s1 s) (carryIn c s)).result
              (sourcesRead d s0 s1 s)).aluFlags m (f (value0 d s0 s1 s) (value1 d s0 s1 s) (carryIn c s))) := by
  unfold execAlu conditionally onPlace operandsReady value0 value1 sourcesRead operandState
  generalize s.advance (operandWords d s0 s1) = u
  cases s.meets cond with
  | false => simpa using eq_comm
  | true =>
    cases hp : d.isPlace with
    | false => simp
    | true =>
      simp only [if_true, withSources_eq_next, andThen_eq_next, writeDest_eq_next, hp, true_and, reduceCtorEq,
        false_and, false_or, Bool.and_eq_true, Host.Outcome.next.injEq, and_assoc]
      constructor
      · rintro ⟨h1, h0, _, hd, rfl, h⟩
        exact ⟨h1, h0, hd, h.symm⟩
      · rintro ⟨h1, h0, hd, rfl⟩
        exact ⟨h1, h0, _, hd, rfl, rfl⟩

/-- What a shift with a known descriptor leaves once its sources are read (R142). -/
def shifted (desc : ShiftDesc) (m : Bool) (d s0 s1 : Operand) (s : State) : State :=
  let p := shiftWordBy desc.dir (fillBit desc.fill s) (value0 d s0 s1 s)
  (destState d p.1 (sourcesRead d s0 s1 s)).shiftFlags m desc.sink p.1 p.2

/-- What a shift does when it answers a next state: skipped, or the course of its descriptor (R104, R142). -/
theorem execShift_eq_next {opcode : BitVec 4} {cond : Cond} {m : Bool} {d s0 s1 : Operand} {s t : State} :
    execShift opcode cond m d s0 s1 s = .next t ↔
      (s.meets cond = false ∧ t = operandState d s0 s1 s) ∨
        (s.meets cond = true ∧ operandsReady d s0 s1 s = true ∧
          ∃ desc, s.shiftEntry opcode = some desc ∧ t = shifted desc m d s0 s1 s) := by
  unfold execShift conditionally onPlace runShift operandsReady shifted value0 sourcesRead operandState
  generalize s.advance (operandWords d s0 s1) = u
  cases s.meets cond with
  | false => simpa using eq_comm
  | true =>
    cases hp : d.isPlace with
    | false => simp
    | true =>
      cases s.shiftEntry opcode with
      | none => simp
      | some desc =>
        simp only [if_true, withSources_eq_next, andThen_eq_next, writeDest_eq_next, hp, true_and, reduceCtorEq,
          false_and, false_or, Bool.and_eq_true, Host.Outcome.next.injEq, and_assoc, Option.some.injEq,
          exists_eq_left']
        constructor
        · rintro ⟨h1, h0, _, hd, rfl, h⟩
          exact ⟨h1, h0, hd, h.symm⟩
        · rintro ⟨h1, h0, hd, rfl⟩
          exact ⟨h1, h0, _, hd, rfl, rfl⟩

/-- What HALT does: it always answers a next state (R160, R163). -/
theorem execHalt_eq_next {cond : Cond} {rest : BitVec 26} {s t : State} :
    execHalt cond rest s = .next t ↔ t = if s.meets cond then (s.advance 1).halt else s.advance 1 := by
  unfold execHalt conditionally
  cases s.meets cond <;> simp [eq_comm]

/-! ### All instructions -/

/-- Every instruction has one of three courses: an ALU instruction's, a shift's or HALT's (R72). -/
theorem exec_shape (i : Instr) (s : State) :
    (∃ f cond c m d s0 s1, i.cond = cond ∧ i.operands = some (d, s0, s1) ∧ i.length = operandWords d s0 s1 ∧
        exec i s = execAlu f cond c m d s0 s1 s) ∨
      (∃ op cond m d s0 s1, i.cond = cond ∧ i.operands = some (d, s0, s1) ∧ i.length = operandWords d s0 s1 ∧
        exec i s = execShift op cond m d s0 s1 s) ∨
      ∃ cond rest, i = .halt cond rest ∧ exec i s = execHalt cond rest s := by
  cases i with
  | halt => exact .inr (.inr ⟨_, _, rfl, rfl⟩)
  | shift0000 | shift0001 | shift0010 | shift0011 | shift0100 | shift0101 | shift0110 | shift0111 | shift1000
  | shift1001 | shift1010 | shift1011 | shift1100 | shift1101 | shift1110 | shift1111 =>
    exact .inr (.inl ⟨_, _, _, _, _, _, rfl, rfl, rfl, rfl⟩)
  | _ => exact .inl ⟨_, _, _, _, _, _, _, rfl, rfl, rfl, rfl⟩

end Sys2Proof.Machine
end

