-- ==== Sys2Proof/Laws/Alu.lean ====
section
/-! SUPPORT. The exact-integer operations of the ALU in terms of words and their readings: result, C' and V' of each
for a carry-in of at most one. -/

namespace Sys2Proof.Machine

/-- A word that an integer is congruent to. -/
theorem ofInt_of_emod {a : Word} {e : Int} (h : (a.toNat : Int) = e % 2 ^ 32) : BitVec.ofInt 32 e = a := by
  apply BitVec.eq_of_toNat_eq
  rw [BitVec.toNat_ofInt]
  omega

/-- The signed reading of a word by its sign bit. -/
theorem toInt_cases (a : Word) :
    (a.toNat < 2 ^ 31 ∧ a.toInt = a.toNat ∧ a.msb = false) ∨
      (2 ^ 31 ≤ a.toNat ∧ a.toInt = a.toNat - 2 ^ 32 ∧ a.msb = true) := by
  have := a.isLt
  by_cases h : a.toNat < 2 ^ 31
  · refine .inl ⟨h, ?_, ?_⟩
    · rw [BitVec.toInt_eq_toNat_cond]; split <;> omega
    · rw [BitVec.msb_eq_decide]; simp; omega
  · refine .inr ⟨by omega, ?_, ?_⟩
    · rw [BitVec.toInt_eq_toNat_cond]; split <;> omega
    · rw [BitVec.msb_eq_decide]; simp; omega

variable (a b : Word) (k : Nat) (hk : k ≤ 1)
include hk

theorem wordOut_eq : wordOut a k =
    ⟨a + BitVec.ofNat 32 k, k == 1 && a == 0xFFFFFFFF, k == 1 && a == 0x7FFFFFFF⟩ := by
  have := a.isLt
  unfold wordOut exactOut
  congr 1
  · apply ofInt_of_emod; simp [BitVec.toNat_add, BitVec.toNat_ofNat]
  · rw [Bool.eq_iff_iff]; simp [BitVec.toNat_eq]; omega
  · rcases toInt_cases a with ⟨h1, h2, -⟩ | ⟨h1, h2, -⟩ <;> rw [Bool.eq_iff_iff, h2] <;> simp [BitVec.toNat_eq] <;>
      omega

theorem addOut_eq : addOut a b k =
    ⟨a + b + BitVec.ofNat 32 k, decide (2 ^ 32 ≤ a.toNat + b.toNat + k),
      a.msb == b.msb && (a + b + BitVec.ofNat 32 k).msb != a.msb⟩ := by
  have := a.isLt
  have := b.isLt
  unfold addOut exactOut
  have hr : (a + b + BitVec.ofNat 32 k).toNat = (a.toNat + b.toNat + k) % 2 ^ 32 := by
    simp [BitVec.toNat_add, BitVec.toNat_ofNat]
  congr 1
  · apply ofInt_of_emod; omega
  · rw [Bool.eq_iff_iff]; simp; omega
  · rcases toInt_cases a with ⟨h1, h2, h3⟩ | ⟨h1, h2, h3⟩ <;> rcases toInt_cases b with ⟨g1, g2, g3⟩ | ⟨g1, g2, g3⟩ <;>
      rcases toInt_cases (a + b + BitVec.ofNat 32 k) with ⟨r1, r2, r3⟩ | ⟨r1, r2, r3⟩ <;>
      rw [Bool.eq_iff_iff, h2, g2, h3, g3, r3] <;> simp <;> omega

omit hk in
theorem subOut_eq (p : Bool) : subOut p a b k =
    ⟨a - b + BitVec.ofNat 32 k,
      if p then decide (a.toNat + k < b.toNat) || decide (b.toNat + 2 ^ 32 ≤ a.toNat + k)
        else decide (b.toNat ≤ a.toNat + k),
      decide (a.toInt + (k : Int) < b.toInt - 2 ^ 31) || decide (b.toInt + 2 ^ 31 ≤ a.toInt + (k : Int))⟩ := by
  have := a.isLt
  have := b.isLt
  unfold subOut differenceOut exactOut
  have hr : (a - b + BitVec.ofNat 32 k).toNat = ((2 ^ 32 - b.toNat + a.toNat) % 2 ^ 32 + k) % 2 ^ 32 := by
    simp [BitVec.toNat_add, BitVec.toNat_ofNat, BitVec.toNat_sub]
  simp only
  congr 1
  · apply ofInt_of_emod; omega
  · cases p <;> rw [Bool.eq_iff_iff] <;> simp <;> omega
  · rw [Bool.eq_iff_iff]; simp; omega

theorem dblOut_eq : dblOut a k = ⟨2 * a + BitVec.ofNat 32 k, a[31], a[31] != a[30]⟩ := by
  have := a.isLt
  unfold dblOut exactOut
  have hr : (2 * a + BitVec.ofNat 32 k).toNat = (2 * a.toNat + k) % 2 ^ 32 := by
    simp [BitVec.toNat_add, BitVec.toNat_ofNat, BitVec.toNat_mul]
  have h31 : a[31] = decide (2 ^ 31 ≤ a.toNat) := by
    rw [BitVec.getElem_eq_testBit_toNat, Nat.testBit_eq_decide_div_mod_eq, Bool.eq_iff_iff]; simp; omega
  have h30 : a[30] = decide (2 ^ 30 ≤ a.toNat % 2 ^ 31) := by
    rw [BitVec.getElem_eq_testBit_toNat, Nat.testBit_eq_decide_div_mod_eq, Bool.eq_iff_iff]; simp; omega
  congr 1
  · apply ofInt_of_emod; omega
  · rw [Bool.eq_iff_iff, h31]; simp; omega
  · rw [h31, h30]
    rcases toInt_cases a with ⟨h1, h2, h3⟩ | ⟨h1, h2, h3⟩ <;> rw [Bool.eq_iff_iff, h2] <;> simp <;> omega

theorem decOut_eq (p : Bool) : decOut p a k =
    ⟨a - 1 + BitVec.ofNat 32 k, (a == 0 && k == 0) == p, a == 0x80000000 && k == 0⟩ := by
  have := a.isLt
  unfold decOut differenceOut exactOut
  have hr : (a - 1 + BitVec.ofNat 32 k).toNat = ((2 ^ 32 - 1 + a.toNat) % 2 ^ 32 + k) % 2 ^ 32 := by
    simp [BitVec.toNat_add, BitVec.toNat_ofNat, BitVec.toNat_sub]
  simp only
  congr 1
  · apply ofInt_of_emod; omega
  · cases p <;> rw [Bool.eq_iff_iff] <;> simp [BitVec.toNat_eq] <;> omega
  · rcases toInt_cases a with ⟨h1, h2, -⟩ | ⟨h1, h2, -⟩ <;> rw [Bool.eq_iff_iff, h2] <;> simp [BitVec.toNat_eq] <;>
      omega

end Sys2Proof.Machine
end

