-- ==== Sys2Proof/Laws/Decode.lean ====
section
/-! SUPPORT. Decoding: how many constants an operand field and an instruction word take, and that fetching always gives
the decoder enough words. -/

namespace Sys2Proof

/-- A field of a field. -/
theorem extractLsb'_of_extractLsb' {n : Nat} (w : BitVec n) (a b c d : Nat) (h : c + d ≤ b) :
    (w.extractLsb' a b).extractLsb' c d = w.extractLsb' (a + c) d := by
  apply BitVec.eq_of_getLsbD_eq
  intro i hi
  rw [BitVec.getLsbD_extractLsb', BitVec.getLsbD_extractLsb', BitVec.getLsbD_extractLsb']
  have : c + i < b := by omega
  simp [hi, this, Nat.add_assoc]

/-- Everything decoding a field can do: the operand is the one the field encodes, and takes the next constant if its
form owns one (R76, R77). -/
theorem operandOfField_eq_ok {t : ModeTable} {f : BitVec 7} {ks rest : List Word} {o : Operand} :
    operandOfField t f ks = .ok (o, rest) ↔ o.ofField t f ∧ ks = o.constants ++ rest := by
  unfold operandOfField Operand.ofField
  generalize t.form (f.extractLsb' 4 3) = m
  constructor
  · cases m <;> (try cases ks) <;> intro h <;> cases h <;> exact ⟨⟨rfl, rfl⟩, rfl⟩
  · rintro ⟨⟨hm, hr⟩, rfl⟩
    subst hm
    cases o <;> cases hr <;> rfl

/-- A field's operand owns as many constants as its mode code says (R77). -/
theorem constants_length_of_ofField {t : ModeTable} {f : BitVec 7} {o : Operand} (h : o.ofField t f) :
    o.constants.length = t.constantsOf (f.extractLsb' 4 3) := by
  rw [ModeTable.constantsOf, ← h.1]
  cases o <;> rfl

/-- A field decodes when there is a constant for it. -/
theorem operandOfField_of_length {t : ModeTable} {f : BitVec 7} {ks : List Word} {n : Nat}
    (h : t.constantsOf (f.extractLsb' 4 3) + n ≤ ks.length) :
    ∃ o rest, operandOfField t f ks = .ok (o, rest) ∧ n ≤ rest.length := by
  unfold operandOfField ModeTable.constantsOf at *
  generalize t.form (f.extractLsb' 4 3) = m at *
  cases m <;> cases ks <;> simp [Form.ownsConstant] at h ⊢ <;> omega

theorem aluInstr_operands (op : BitVec 4) (cond : Cond) (c m : Bool) (d s0 s1 : Operand) :
    (aluInstr op cond c m d s0 s1).operands = some (d, s0, s1) := by
  unfold aluInstr; split <;> rfl

theorem shiftInstr_operands (op : BitVec 4) (cond : Cond) (m : Bool) (d s0 s1 : Operand) :
    (shiftInstr op cond m d s0 s1).operands = some (d, s0, s1) := by
  unfold shiftInstr; split <;> rfl

/-- The instruction an ALU or shift word stands for, with its operands (R73, R74). -/
def instrOfWord (w : Word) (d s0 s1 : Operand) : Instr :=
  let cond := Cond.ofField (w.extractLsb' 28 4)
  if w[27] then shiftInstr (w.extractLsb' 21 4) cond w[25] d s0 s1
  else aluInstr (w.extractLsb' 21 4) cond w[26] w[25] d s0 s1

theorem instrOfWord_operands (w : Word) (d s0 s1 : Operand) : (instrOfWord w d s0 s1).operands = some (d, s0, s1) := by
  unfold instrOfWord
  split
  · exact shiftInstr_operands ..
  · exact aluInstr_operands ..

/-- Everything decoding can do: a HALT takes no constant; any other word takes the constants of its three operands,
which its fields encode (R72 to R78). -/
theorem decode_eq_ok {t : ModeTable} {w : Word} {ks rest : List Word} {i : Instr} :
    decode t (w :: ks) = .ok (i, rest) ↔
      ((w[27] && w[26]) = true ∧ i = .halt (Cond.ofField (w.extractLsb' 28 4)) (w.extractLsb' 0 26) ∧ rest = ks) ∨
        ((w[27] && w[26]) = false ∧ ∃ d s0 s1, i = instrOfWord w d s0 s1 ∧ ks = operandConstants d s0 s1 ++ rest ∧
          d.ofField t (w.extractLsb' 14 7) ∧ s0.ofField t (w.extractLsb' 7 7) ∧ s1.ofField t (w.extractLsb' 0 7)) := by
  cases hg : (w[27] && w[26]) with
  | true => simp [decode, hg, eq_comm]
  | false =>
    simp only [decode, hg, Bool.false_eq_true, if_false, false_and, false_or, true_and]
    constructor
    · intro h
      cases hd : operandOfField t (w.extractLsb' 14 7) ks with
      | error e => simp [hd] at h
      | ok p =>
        obtain ⟨d, r1⟩ := p
        cases h0 : operandOfField t (w.extractLsb' 7 7) r1 with
        | error e => simp [hd, h0] at h
        | ok p =>
          obtain ⟨s0, r2⟩ := p
          cases h1 : operandOfField t (w.extractLsb' 0 7) r2 with
          | error e => simp [hd, h0, h1] at h
          | ok p =>
            obtain ⟨s1, r3⟩ := p
            have hi : i = instrOfWord w d s0 s1 ∧ rest = r3 := by
              unfold instrOfWord
              simp only [hd, h0, h1] at h
              cases h27 : w[27] <;> simp [h27] at h <;> exact ⟨by simp [h.1], h.2.symm⟩
            obtain ⟨fd, ed⟩ := operandOfField_eq_ok.mp hd
            obtain ⟨f0, e0⟩ := operandOfField_eq_ok.mp h0
            obtain ⟨f1, e1⟩ := operandOfField_eq_ok.mp h1
            exact ⟨d, s0, s1, hi.1, by simp [operandConstants, ed, e0, e1, hi.2], fd, f0, f1⟩
    · rintro ⟨d, s0, s1, rfl, rfl, fd, f0, f1⟩
      have hd : operandOfField t (w.extractLsb' 14 7) (operandConstants d s0 s1 ++ rest) =
          .ok (d, s0.constants ++ (s1.constants ++ rest)) :=
        operandOfField_eq_ok.mpr ⟨fd, by simp [operandConstants]⟩
      have h0 := operandOfField_eq_ok.mpr ⟨f0, rfl (a := s0.constants ++ (s1.constants ++ rest))⟩
      have h1 := operandOfField_eq_ok.mpr ⟨f1, rfl (a := s1.constants ++ rest)⟩
      simp only [hd, h0, h1, instrOfWord]
      cases w[27] <;> rfl

/-- The constants a decoded instruction takes are as many as its word says (R77, R87). -/
theorem constantCount_of_decode {t : ModeTable} {w : Word} {ks rest : List Word} {i : Instr}
    (h : decode t (w :: ks) = .ok (i, rest)) :
    ks = i.constants ++ rest ∧ i.constants.length = constantCount t w := by
  rcases decode_eq_ok.mp h with ⟨hg, rfl, rfl⟩ | ⟨hg, d, s0, s1, rfl, rfl, fd, f0, f1⟩
  · simp [constantCount, hg, Instr.constants, Instr.operands]
  · have hd := constants_length_of_ofField fd
    have h0 := constants_length_of_ofField f0
    have h1 := constants_length_of_ofField f1
    rw [extractLsb'_of_extractLsb' _ _ _ _ _ (by decide)] at hd h0 h1
    simp [constantCount, hg, Instr.constants, instrOfWord_operands, operandConstants, hd, h0, h1, Nat.add_assoc]

/-- An instruction word with as many words after it as it owns constants decodes, and takes exactly those
(R77, R84, R87). -/
theorem decode_constantCount {t : ModeTable} {w : Word} {ks : List Word} (h : constantCount t w ≤ ks.length) :
    ∃ i rest, decode t (w :: ks) = .ok (i, rest) ∧ ks = i.constants ++ rest ∧
      i.constants.length = constantCount t w := by
  suffices ∃ i rest, decode t (w :: ks) = .ok (i, rest) by
    obtain ⟨i, rest, hd⟩ := this
    exact ⟨i, rest, hd, constantCount_of_decode hd⟩
  unfold constantCount at h
  cases hg : (w[27] && w[26]) with
  | true => exact ⟨_, _, decode_eq_ok.mpr (.inl ⟨hg, rfl, rfl⟩)⟩
  | false =>
    simp only [hg, Bool.false_eq_true, if_false] at h
    have sub (lo hi : Nat) (e : lo + 4 = hi) : (w.extractLsb' lo 7).extractLsb' 4 3 = w.extractLsb' hi 3 := by
      rw [extractLsb'_of_extractLsb' _ _ _ _ _ (by decide), e]
    obtain ⟨d, ks1, hd, n1⟩ := operandOfField_of_length (t := t) (f := w.extractLsb' 14 7) (ks := ks)
      (n := t.constantsOf (w.extractLsb' 11 3) + t.constantsOf (w.extractLsb' 4 3)) (by rw [sub 14 18 rfl]; omega)
    obtain ⟨s0, ks2, hs0, n2⟩ := operandOfField_of_length (t := t) (f := w.extractLsb' 7 7) (ks := ks1)
      (n := t.constantsOf (w.extractLsb' 4 3)) (by rw [sub 7 11 rfl]; omega)
    obtain ⟨s1, ks3, hs1, -⟩ := operandOfField_of_length (t := t) (f := w.extractLsb' 0 7) (ks := ks2) (n := 0)
      (by rw [sub 0 4 rfl]; omega)
    obtain ⟨fd, rfl⟩ := operandOfField_eq_ok.mp hd
    obtain ⟨f0, rfl⟩ := operandOfField_eq_ok.mp hs0
    obtain ⟨f1, rfl⟩ := operandOfField_eq_ok.mp hs1
    exact ⟨_, ks3, decode_eq_ok.mpr (.inr ⟨hg, d, s0, s1, rfl, by simp [operandConstants], fd, f0, f1⟩)⟩

namespace Machine

/-- Fetching `n` cells answers a list of `n` words. -/
theorem fetchCells_length {s : State} {n : Nat} {a : Word} {ws : List Word} (h : fetchCells s n a = .next ws) :
    ws.length = n := by
  induction n generalizing a ws with
  | zero => cases h; rfl
  | succ n ih =>
    simp only [fetchCells, andThen_eq_next] at h
    obtain ⟨w, -, ws', h', e⟩ := h
    cases e
    simp [ih h']

/-- Fetching refuses nothing: it answers an instruction or is stuck (R84, R51). -/
theorem fetch_ne_refused (s : State) (r : Refusal) : fetch s ≠ .refused r := by
  unfold fetch
  cases hl : load (s.reg 15) s with
  | fault e => simp [andThen]
  | refused r' => unfold load at hl; split at hl <;> simp at hl
  | next w =>
    rw [andThen_next]
    have nr : ∀ n a r', fetchCells s n a ≠ .refused r' := by
      intro n
      induction n with
      | zero => intro a r'; simp [fetchCells]
      | succ n ih =>
        intro a r'
        simp only [fetchCells]
        have : ∀ r'', load a s ≠ .refused r'' := by intro r''; unfold load; split <;> simp
        cases h1 : load a s with
        | fault e => simp [andThen]
        | refused r'' => exact absurd h1 (this r'')
        | next w =>
          rw [andThen_next]
          cases h2 : fetchCells s n (a + 1) with
          | fault e => simp [andThen]
          | refused r'' => exact absurd h2 (ih _ _)
          | next ws => simp [andThen]
    cases hc : fetchCells s (constantCount s.cfg.modeTable w) (s.reg 15 + 1) with
    | fault e => simp [andThen]
    | refused r' => exact absurd hc (nr _ _ _)
    | next ks =>
      obtain ⟨i, rest, hd, -⟩ := decode_constantCount (t := s.cfg.modeTable) (w := w) (ks := ks) (by rw [fetchCells_length hc])
      simp [hd]

end Machine

end Sys2Proof
end

