-- ==== Sys2Proof/Laws/Encode.lean ====
section
/-! SUPPORT. The fields of an encoded word, and that an encoded field decodes to what it encodes (R73 to R77). -/

namespace Sys2Proof

theorem extractLsb'_append_high {m n : Nat} (a : BitVec m) (b : BitVec n) (lo k : Nat) (h : n ≤ lo) :
    (a ++ b).extractLsb' lo k = a.extractLsb' (lo - n) k := by
  apply BitVec.eq_of_getLsbD_eq
  intro i hi
  rw [BitVec.getLsbD_extractLsb', BitVec.getLsbD_extractLsb', BitVec.getLsbD_append]
  have : ¬ lo + i < n := by omega
  have e : lo + i - n = lo - n + i := by omega
  simp [this, e]

theorem extractLsb'_append_low {m n : Nat} (a : BitVec m) (b : BitVec n) (lo k : Nat) (h : lo + k ≤ n) :
    (a ++ b).extractLsb' lo k = b.extractLsb' lo k := by
  apply BitVec.eq_of_getLsbD_eq
  intro i hi
  rw [BitVec.getLsbD_extractLsb', BitVec.getLsbD_extractLsb', BitVec.getLsbD_append]
  have : lo + i < n := by omega
  simp [this]

theorem extractLsb'_whole {n : Nat} (a : BitVec n) : a.extractLsb' 0 n = a := by
  apply BitVec.eq_of_getLsbD_eq
  intro i hi
  simp [hi]

/-- One bit as a field of width one. -/
theorem getElem_of_extractLsb' {n : Nat} {w : BitVec n} {i : Nat} {b : Bool} (hi : i < n)
    (h : w.extractLsb' i 1 = BitVec.ofBool b) : w[i] = b := by
  have e := congrArg (fun v => v.getLsbD 0) h
  rw [← BitVec.getLsbD_eq_getElem]
  simpa using e

/-- The middle part of a concatenation of three. -/
theorem extractLsb'_append_mid {l m n : Nat} (a : BitVec l) (b : BitVec m) (c : BitVec n) :
    (a ++ b ++ c).extractLsb' n m = b := by
  rw [extractLsb'_append_high _ _ _ _ (Nat.le_refl n), Nat.sub_self,
    extractLsb'_append_low _ _ _ _ (by omega), extractLsb'_whole]

/-- A field above the lowest part of a concatenation. -/
theorem extractLsb'_append_of_eq {m n : Nat} (a : BitVec m) (b : BitVec n) {lo k : Nat} (h : n ≤ lo)
    {v : BitVec k} (hv : a.extractLsb' (lo - n) k = v) : (a ++ b).extractLsb' lo k = v :=
  (extractLsb'_append_high a b lo k h).trans hv

section
variable (t : ModeTable) (op : BitVec 4) (cond : Cond) (c m : Bool) (d s0 s1 : Operand) (rest : BitVec 26)

/-! ### Fields of an ALU word (R73) -/

theorem aluWord_s1 : (aluWord t op cond c m d s0 s1).extractLsb' 0 7 = s1.field t :=
  (extractLsb'_append_low _ _ _ _ (by decide)).trans (extractLsb'_whole _)

theorem aluWord_s0 : (aluWord t op cond c m d s0 s1).extractLsb' 7 7 = s0.field t := extractLsb'_append_mid _ _ _

theorem aluWord_d : (aluWord t op cond c m d s0 s1).extractLsb' 14 7 = d.field t :=
  extractLsb'_append_of_eq _ _ (by decide) (extractLsb'_append_mid _ _ _)

theorem aluWord_opcode : (aluWord t op cond c m d s0 s1).extractLsb' 21 4 = op :=
  extractLsb'_append_of_eq _ _ (by decide) (extractLsb'_append_of_eq _ _ (by decide) (extractLsb'_append_mid _ _ _))

theorem aluWord_m : (aluWord t op cond c m d s0 s1)[25] = m :=
  getElem_of_extractLsb' (by decide) (extractLsb'_append_of_eq _ _ (by decide) (extractLsb'_append_of_eq _ _ (by decide)
    (extractLsb'_append_of_eq _ _ (by decide) (extractLsb'_append_mid _ _ _))))

theorem aluWord_c : (aluWord t op cond c m d s0 s1)[26] = c :=
  getElem_of_extractLsb' (by decide) (extractLsb'_append_of_eq _ _ (by decide) (extractLsb'_append_of_eq _ _ (by decide)
    (extractLsb'_append_of_eq _ _ (by decide) (extractLsb'_append_of_eq _ _ (by decide)
      (extractLsb'_append_mid _ _ _)))))

theorem aluWord_group : (aluWord t op cond c m d s0 s1)[27] = false :=
  getElem_of_extractLsb' (by decide) (extractLsb'_append_of_eq _ _ (by decide) (extractLsb'_append_of_eq _ _ (by decide)
    (extractLsb'_append_of_eq _ _ (by decide) (extractLsb'_append_of_eq _ _ (by decide)
      (extractLsb'_append_of_eq _ _ (by decide) (extractLsb'_append_mid _ _ _))))))

theorem aluWord_cond : (aluWord t op cond c m d s0 s1).extractLsb' 28 4 = cond.field :=
  extractLsb'_append_of_eq _ _ (by decide) (extractLsb'_append_of_eq _ _ (by decide)
    (extractLsb'_append_of_eq _ _ (by decide) (extractLsb'_append_of_eq _ _ (by decide)
      (extractLsb'_append_of_eq _ _ (by decide) (extractLsb'_append_of_eq _ _ (by decide)
        (extractLsb'_append_of_eq _ _ (by decide) (extractLsb'_whole _)))))))

/-! ### Fields of a shift word (R74) -/

theorem shiftWord_s1 : (shiftWord t op cond m d s0 s1).extractLsb' 0 7 = s1.field t :=
  (extractLsb'_append_low _ _ _ _ (by decide)).trans (extractLsb'_whole _)

theorem shiftWord_s0 : (shiftWord t op cond m d s0 s1).extractLsb' 7 7 = s0.field t := extractLsb'_append_mid _ _ _

theorem shiftWord_d : (shiftWord t op cond m d s0 s1).extractLsb' 14 7 = d.field t :=
  extractLsb'_append_of_eq _ _ (by decide) (extractLsb'_append_mid _ _ _)

theorem shiftWord_opcode : (shiftWord t op cond m d s0 s1).extractLsb' 21 4 = op :=
  extractLsb'_append_of_eq _ _ (by decide) (extractLsb'_append_of_eq _ _ (by decide) (extractLsb'_append_mid _ _ _))

theorem shiftWord_m : (shiftWord t op cond m d s0 s1)[25] = m :=
  getElem_of_extractLsb' (by decide) (extractLsb'_append_of_eq _ _ (by decide) (extractLsb'_append_of_eq _ _ (by decide)
    (extractLsb'_append_of_eq _ _ (by decide) (extractLsb'_append_mid _ _ _))))

theorem shiftWord_group : (shiftWord t op cond m d s0 s1).extractLsb' 26 2 = 2#2 :=
  extractLsb'_append_of_eq _ _ (by decide) (extractLsb'_append_of_eq _ _ (by decide)
    (extractLsb'_append_of_eq _ _ (by decide) (extractLsb'_append_of_eq _ _ (by decide)
      (extractLsb'_append_mid _ _ _))))

theorem shiftWord_cond : (shiftWord t op cond m d s0 s1).extractLsb' 28 4 = cond.field :=
  extractLsb'_append_of_eq _ _ (by decide) (extractLsb'_append_of_eq _ _ (by decide)
    (extractLsb'_append_of_eq _ _ (by decide) (extractLsb'_append_of_eq _ _ (by decide)
      (extractLsb'_append_of_eq _ _ (by decide) (extractLsb'_append_of_eq _ _ (by decide) (extractLsb'_whole _))))))

/-! ### Fields of a HALT word (R75) -/

theorem haltWord_rest : (haltWord cond rest).extractLsb' 0 26 = rest :=
  (extractLsb'_append_low _ _ _ _ (by decide)).trans (extractLsb'_whole _)

theorem haltWord_group : (haltWord cond rest).extractLsb' 26 2 = 3#2 := extractLsb'_append_mid _ _ _

theorem haltWord_cond : (haltWord cond rest).extractLsb' 28 4 = cond.field :=
  extractLsb'_append_of_eq _ _ (by decide) (extractLsb'_append_of_eq _ _ (by decide) (extractLsb'_whole _))

end

/-- The two bits of a two-bit field. -/
theorem getElem_of_extractLsb'_two {n : Nat} {w : BitVec n} {i : Nat} {v : BitVec 2} (hi : i + 1 < n)
    (h : w.extractLsb' i 2 = v) : w[i] = v[0] ∧ w[i + 1] = v[1] := by
  subst h
  rw [← BitVec.getLsbD_eq_getElem, ← BitVec.getLsbD_eq_getElem]
  simp [BitVec.getLsbD_eq_getElem hi]

/-- A condition is what its field decodes to (R100). -/
theorem Cond.ofField_field (c : Cond) : Cond.ofField c.field = c := by
  obtain ⟨n, b⟩ := c
  cases n <;> cases b <;> rfl

/-- A field is that of the condition it decodes to (R100). -/
theorem Cond.field_ofField (f : BitVec 4) : (Cond.ofField f).field = f := by
  revert f; decide

/-! ### Mode codes (R167) -/

/-- In a table within its limits every form has a code. -/
theorem ModeTable.mem_of_wf {t : ModeTable} (h : t.wf) (f : Form) : f ∈ t.toList := by
  have hall : ∀ g : Form, g ∈ [Form.reg, .preDec, .postInc, .const, .mem, .memPreDec, .memPostInc, .memConst] := by
    intro g; cases g <;> decide
  have hperm := (h.1.subperm fun g _ => hall g).perm_of_length_le (by simp)
  exact hperm.mem_iff.mpr (hall f)

/-- The code of a form has that form. -/
theorem ModeTable.form_code {t : ModeTable} (h : t.wf) (f : Form) : t.form (t.code f) = f := by
  have hlt : t.toList.idxOf f < 8 := by
    have := List.idxOf_lt_length_of_mem (ModeTable.mem_of_wf h f)
    simpa using this
  have hget := List.getElem_idxOf (xs := t.toList) (x := f) (by simpa using hlt)
  have hval : (t.code f).toFin.val = t.toList.idxOf f := by
    simpa [ModeTable.code] using Nat.mod_eq_of_lt hlt
  simp only [ModeTable.form, Fin.getElem_fin, hval]
  rwa [Vector.getElem_toList] at hget

/-- A code is that of the form it has. -/
theorem ModeTable.code_form {t : ModeTable} (h : t.wf) (c : BitVec 3) : t.code (t.form c) = c := by
  have hc : c.toNat < t.toList.length := by simpa using c.isLt
  have e : t.form c = t.toList[c.toNat] := by simp [ModeTable.form]
  rw [ModeTable.code, e, h.1.idxOf_getElem _ hc]
  simp

/-- The field of an operand encodes it (R76). -/
theorem ofField_field {t : ModeTable} (h : t.wf) (o : Operand) : o.ofField t (o.field t) := by
  have h1 : (o.field t).extractLsb' 0 4 = BitVec.ofFin (w := 4) o.register :=
    (extractLsb'_append_low _ _ _ _ (by decide)).trans (extractLsb'_whole _)
  have h2 : (o.field t).extractLsb' 4 3 = t.code o.form :=
    (extractLsb'_append_high _ _ _ _ (by decide)).trans (extractLsb'_whole _)
  exact ⟨by rw [h2, ModeTable.form_code h], by rw [h1]⟩

/-- A field that encodes an operand is the operand's field (R76). -/
theorem field_of_ofField {t : ModeTable} (h : t.wf) {o : Operand} {f : BitVec 7} (hf : o.ofField t f) :
    o.field t = f := by
  rw [Operand.field, hf.1, hf.2, ModeTable.code_form h]
  change f.extractLsb' 4 3 ++ f.extractLsb' 0 4 = f
  apply BitVec.eq_of_getLsbD_eq
  intro i hi
  rw [BitVec.getLsbD_append]
  by_cases h4 : i < 4
  · simp [h4]
  · have h3 : i - 4 < 3 := by omega
    have e : 4 + (i - 4) = i := by omega
    simp [h4, h3, e]

/-- A field fixes the bits in it. -/
theorem getLsbD_eq_of_extractLsb'_eq {n : Nat} {v w : BitVec n} {a k i : Nat}
    (h : v.extractLsb' a k = w.extractLsb' a k) (h1 : a ≤ i) (h2 : i < a + k) : v.getLsbD i = w.getLsbD i := by
  have e := congrArg (fun x => x.getLsbD (i - a)) h
  have h3 : i - a < k := by omega
  have h4 : a + (i - a) = i := by omega
  simpa [h3, h4] using e

/-- The fields of the ALU and shift formats fix the whole word (R73, R74). -/
theorem word_eq_of_fields {v w : Word} (f0 : v.extractLsb' 0 7 = w.extractLsb' 0 7)
    (f1 : v.extractLsb' 7 7 = w.extractLsb' 7 7) (f2 : v.extractLsb' 14 7 = w.extractLsb' 14 7)
    (f3 : v.extractLsb' 21 4 = w.extractLsb' 21 4) (f4 : v[25] = w[25]) (f5 : v[26] = w[26]) (f6 : v[27] = w[27])
    (f7 : v.extractLsb' 28 4 = w.extractLsb' 28 4) : v = w := by
  apply BitVec.eq_of_getLsbD_eq
  intro i hi
  rcases (by omega : i < 7 ∨ (7 ≤ i ∧ i < 14) ∨ (14 ≤ i ∧ i < 21) ∨ (21 ≤ i ∧ i < 25) ∨ i = 25 ∨ i = 26 ∨
    i = 27 ∨ 28 ≤ i) with h | h | h | h | h | h | h | h
  · exact getLsbD_eq_of_extractLsb'_eq f0 (by omega) (by omega)
  · exact getLsbD_eq_of_extractLsb'_eq f1 (by omega) (by omega)
  · exact getLsbD_eq_of_extractLsb'_eq f2 (by omega) (by omega)
  · exact getLsbD_eq_of_extractLsb'_eq f3 (by omega) (by omega)
  · subst h; exact f4
  · subst h; exact f5
  · subst h; exact f6
  · exact getLsbD_eq_of_extractLsb'_eq f7 (by omega) (by omega)

/-- The word of the instruction an ALU opcode selects (R81). -/
theorem aluInstr_word (t : ModeTable) (op : BitVec 4) (cond : Cond) (c m : Bool) (d s0 s1 : Operand) :
    (aluInstr op cond c m d s0 s1).word t = aluWord t op cond c m d s0 s1 := by
  obtain ⟨⟨n, hn⟩⟩ := op
  have hn : n < 16 := hn
  interval_cases n <;> rfl

/-- The word of the instruction a shift opcode selects (R82). -/
theorem shiftInstr_word (t : ModeTable) (op : BitVec 4) (cond : Cond) (m : Bool) (d s0 s1 : Operand) :
    (shiftInstr op cond m d s0 s1).word t = shiftWord t op cond m d s0 s1 := by
  obtain ⟨⟨n, hn⟩⟩ := op
  have hn : n < 16 := hn
  interval_cases n <;> rfl

end Sys2Proof
end

