-- ==== Sys2Proof/Laws/Flags.lean ====
section
/-! SUPPORT. Status bits after an update: which bits of R14 the flag writes set and that they set no other. -/

namespace Sys2Proof

theorem StatusBit.pos_lt (f : StatusBit) : f.pos < 32 := by cases f <;> decide

theorem StatusBit.pos_inj {f g : StatusBit} (h : f.pos = g.pos) : f = g := by
  revert h; cases f <;> cases g <;> decide

namespace Machine

/-- The one set bit of a mask. -/
theorem getLsbD_oneShift (n j : Nat) (hn : n < 32) : (1#32 <<< n).getLsbD j = decide (j = n) := by
  rw [BitVec.getLsbD_shiftLeft, BitVec.getLsbD_one]
  by_cases h : j = n
  · subst h; simp [hn]
  · by_cases h2 : j < n
    · simp [h, h2]
    · have : ¬ j - n = 0 := by omega
      simp [h, this]

/-- A bit of a word with one bit replaced. -/
theorem getLsbD_setBit (w : Word) (n j : Nat) (b : Bool) (hn : n < 32) :
    (setBit w n b).getLsbD j = if j = n then b else w.getLsbD j := by
  unfold setBit
  cases b
  · rw [if_neg (by simp), BitVec.getLsbD_and, BitVec.getLsbD_not, getLsbD_oneShift n j hn]
    by_cases hj : j < 32
    · by_cases h : j = n <;> simp [hj, h]
    · have : ¬ j = n := by omega
      rw [BitVec.getLsbD_of_ge w j (by omega)]
      simp [this]
  · rw [if_pos rfl, BitVec.getLsbD_or, getLsbD_oneShift n j hn]
    by_cases h : j = n <;> simp [h]

variable (s : State)

/-- Replacing a status bit changes no register but R14. -/
theorem State.reg_setFlag_of_ne (f : StatusBit) (b : Bool) {j : RegNo} (h : j ≠ 14) :
    (s.setFlag f b).reg j = s.reg j := State.reg_writeReg_of_ne s h _

/-- A bit of R14 after a status bit other than the hardwired one is replaced. -/
theorem State.bit_setFlag (f : StatusBit) (b : Bool) (hf : f ≠ .always) (j : Nat) :
    ((s.setFlag f b).reg 14).getLsbD j = if j = f.pos then b else (s.reg 14).getLsbD j := by
  have h24 : (alwaysOne).getLsbD j = decide (j = 24) := by
    by_cases hj : j < 32
    · revert hj; revert j; decide
    · rw [BitVec.getLsbD_of_ge _ _ (by omega)]
      have : ¬ j = 24 := by omega
      simp [this]
  have hp : f.pos ≠ 24 := by cases f <;> first | exact absurd rfl hf | decide
  rw [State.setFlag, State.reg_writeReg]
  simp only [show (14 : RegNo) ≠ 0 by decide, if_false, if_true]
  rw [BitVec.getLsbD_or, getLsbD_setBit _ _ _ _ f.pos_lt, h24]
  by_cases hj : j = 24
  · subst hj
    simp [Ne.symm hp, State.reg14_bit24]
  · simp [hj]

/-- A status bit after a replacement. -/
theorem State.flag_setFlag (f g : StatusBit) (b : Bool) (hf : f ≠ .always) :
    (s.setFlag f b).flag g = if g = f then b else s.flag g := by
  rw [State.flag, State.bit_setFlag s f b hf]
  by_cases h : g = f
  · subst h; simp
  · rw [if_neg fun e => h (StatusBit.pos_inj e), if_neg h]; rfl

/-- R14 after the flag write of an ALU instruction with its M bit set: bits 29:25 are V, N, Z, C, X, the others as
before (R114). -/
theorem State.bit_aluFlags (o : AluOut) (j : Nat) :
    ((s.aluFlags true o).reg 14).getLsbD j =
      if j = 29 then o.overflow else if j = 26 then o.carry else if j = 25 then o.result == 0xFFFFFFFF
      else if j = 27 then o.result == 0 else if j = 28 then o.result.msb else (s.reg 14).getLsbD j := by
  simp only [State.aluFlags, State.setResultFlags, if_true]
  rw [State.bit_setFlag _ _ _ (by decide), State.bit_setFlag _ _ _ (by decide), State.bit_setFlag _ _ _ (by decide),
    State.bit_setFlag _ _ _ (by decide), State.bit_setFlag _ _ _ (by decide)]
  rfl

/-- The flag write of an ALU instruction changes no register but R14 (R114). -/
theorem State.reg_aluFlags_of_ne (m : Bool) (o : AluOut) {j : RegNo} (h : j ≠ 14) :
    (s.aluFlags m o).reg j = s.reg j := by
  cases m
  · rfl
  · simp [State.aluFlags, State.setResultFlags, State.reg_setFlag_of_ne, h]

/-- The flag update of a shift changes no register but R14 (R146). -/
theorem State.reg_shiftFlags_of_ne (m : Bool) (k : ShiftSink) (r : Word) (b : Bool) {j : RegNo} (h : j ≠ 14) :
    (s.shiftFlags m k r b).reg j = s.reg j := by
  cases m <;> cases k <;> simp [State.shiftFlags, State.setResultFlags, State.reg_setFlag_of_ne, h]

/-- R14 after a shift with its M bit set: V is cleared, N, Z and X describe the result, C takes the bit shifted out if
the sink is the carry, and every other bit is as before (R146). -/
theorem State.bit_shiftFlags (k : ShiftSink) (r : Word) (b : Bool) (j : Nat) :
    ((s.shiftFlags true k r b).reg 14).getLsbD j =
      if j = 29 then false else if j = 25 then r == 0xFFFFFFFF else if j = 27 then r == 0
      else if j = 28 then r.msb else if j = 26 ∧ k = .carry then b else (s.reg 14).getLsbD j := by
  cases k <;> simp only [State.shiftFlags, State.setResultFlags, if_true]
  · rw [State.bit_setFlag _ _ _ (by decide), State.bit_setFlag _ _ _ (by decide),
      State.bit_setFlag _ _ _ (by decide), State.bit_setFlag _ _ _ (by decide)]
    simp [StatusBit.pos, StatusBit.code]
  · rw [State.bit_setFlag _ _ _ (by decide), State.bit_setFlag _ _ _ (by decide),
      State.bit_setFlag _ _ _ (by decide), State.bit_setFlag _ _ _ (by decide), State.bit_setFlag _ _ _ (by decide)]
    simp [StatusBit.pos, StatusBit.code]

end Machine

end Sys2Proof
end

