-- ==== Sys2Proof/Laws/Memory.lean ====
section
/-! SUPPORT. Memory: a read after a write, and that the one memory operation keeps the canonical form (R53, R54). -/

namespace Sys2Proof.Machine

theorem Memory.read_cell (a b : Nat) (v : Word) (rest : Memory) (h : Memory.read rest a = Memory.unlisted) :
    (Memory.cell a v rest).read b = if b = a then v else rest.read b := by
  unfold Memory.cell
  split
  · next hv => by_cases hb : b = a <;> simp [hb, h, hv]
  · rfl

/-- An address below every listed one reads as unlisted. -/
theorem Memory.read_of_lt {m : Memory} {a : Nat} (h : ∀ p ∈ m, a < p.1) : m.read a = Memory.unlisted := by
  induction m with
  | nil => rfl
  | cons p rest ih =>
    have hp := h p (by simp)
    simp only [Memory.read]
    rw [if_neg (by omega), ih fun q hq => h q (by simp [hq])]

/-- A written cell reads as the word written and every other cell as before (R54). -/
theorem Memory.read_write {m : Memory} (hm : m.wf) (a b : Nat) (v : Word) :
    (m.write a v).read b = if b = a then v else m.read b := by
  induction m with
  | nil => exact Memory.read_cell a b v [] rfl
  | cons p rest ih =>
    obtain ⟨hs, hv⟩ := hm
    rw [List.pairwise_cons] at hs
    have hrest : Memory.wf rest := ⟨hs.2, fun q hq => hv q (by simp [hq])⟩
    simp only [Memory.write]
    split
    · next hlt =>
      rw [Memory.read_cell]
      apply Memory.read_of_lt
      intro q hq
      rcases List.mem_cons.mp hq with rfl | hq
      · exact hlt
      · have := hs.1 q hq; omega
    · split
      · next heq =>
        subst heq
        rw [Memory.read_cell _ _ _ _ (Memory.read_of_lt hs.1)]
        by_cases hb : b = p.1 <;> simp [Memory.read, hb]
      · next hne =>
        simp only [Memory.read]
        rw [ih hrest]
        by_cases hb : b = p.1
        · have : b ≠ a := by omega
          simp [hb]; omega
        · simp [hb]

/-- What a write lists is the written cell or was listed before. -/
theorem Memory.mem_write {m : Memory} {a : Nat} {v : Word} {p : Nat × Word} (h : p ∈ m.write a v) :
    (p = (a, v) ∧ v ≠ Memory.unlisted) ∨ p ∈ m := by
  have cell : ∀ {rest : Memory}, p ∈ Memory.cell a v rest → (p = (a, v) ∧ v ≠ Memory.unlisted) ∨ p ∈ rest := by
    intro rest hp
    unfold Memory.cell at hp
    split at hp
    · exact .inr hp
    · next hv => rcases List.mem_cons.mp hp with hp | hp <;> simp [hp, hv]
  induction m with
  | nil => exact cell h
  | cons q rest ih =>
    simp only [Memory.write] at h
    split at h
    · exact cell h
    · split at h
      · exact (cell h).imp_right fun hp => by simp [hp]
      · rcases List.mem_cons.mp h with hp | hp
        · simp [hp]
        · exact (ih hp).imp_right fun hp => by simp [hp]

theorem Memory.wf_cell {a : Nat} {v : Word} {rest : Memory} (hr : rest.wf) (h : ∀ p ∈ rest, a < p.1) :
    (Memory.cell a v rest).wf := by
  unfold Memory.cell
  split
  · exact hr
  · next hv =>
    refine ⟨List.pairwise_cons.mpr ⟨h, hr.1⟩, fun p hp => ?_⟩
    rcases List.mem_cons.mp hp with rfl | hp
    · exact hv
    · exact hr.2 p hp

/-- Writing a cell keeps the canonical form. -/
theorem Memory.wf_write {m : Memory} (hm : m.wf) (a : Nat) (v : Word) : (m.write a v).wf := by
  induction m with
  | nil => exact Memory.wf_cell hm (by simp)
  | cons q rest ih =>
    have hs := List.pairwise_cons.mp hm.1
    have hrest : Memory.wf rest := ⟨hs.2, fun p hp => hm.2 p (by simp [hp])⟩
    simp only [Memory.write]
    split
    · next hlt =>
      refine Memory.wf_cell hm fun p hp => ?_
      rcases List.mem_cons.mp hp with rfl | hp
      · exact hlt
      · have := hs.1 p hp; omega
    · split
      · next heq => exact Memory.wf_cell hrest fun p hp => by have := hs.1 p hp; omega
      · next hne =>
        have ih := ih hrest
        refine ⟨List.pairwise_cons.mpr ⟨fun p hp => ?_, ih.1⟩, fun p hp => ?_⟩
        · rcases Memory.mem_write hp with ⟨rfl, -⟩ | hp
          · simp only; omega
          · exact hs.1 p hp
        · rcases List.mem_cons.mp hp with rfl | hp
          · exact hm.2 _ (by simp)
          · exact ih.2 p hp

/-- Memories in canonical form that read alike are the same data. -/
theorem Memory.eq_of_read_eq {m n : Memory} (hm : m.wf) (hn : n.wf) (h : ∀ a, m.read a = n.read a) : m = n := by
  induction m generalizing n with
  | nil =>
    cases n with
    | nil => rfl
    | cons q n => exact absurd (by simpa [Memory.read] using (h q.1).symm) (hn.2 q (by simp))
  | cons p m ih =>
    cases n with
    | nil => exact absurd (by simpa [Memory.read] using h p.1) (hm.2 p (by simp))
    | cons q n =>
      have hps := List.pairwise_cons.mp hm.1
      have hqs := List.pairwise_cons.mp hn.1
      have hmw : Memory.wf m := ⟨hps.2, fun r hr => hm.2 r (by simp [hr])⟩
      have hnw : Memory.wf n := ⟨hqs.2, fun r hr => hn.2 r (by simp [hr])⟩
      have hadr : p.1 = q.1 := by
        rcases Nat.lt_trichotomy p.1 q.1 with hlt | heq | hgt
        · have hn' : Memory.read (q :: n) p.1 = Memory.unlisted := Memory.read_of_lt fun r hr => by
            rcases List.mem_cons.mp hr with rfl | hr
            · exact hlt
            · have := hqs.1 r hr; omega
          exact absurd (by rw [← hn', ← h p.1]; simp [Memory.read]) (hm.2 p (by simp))
        · exact heq
        · have hm' : Memory.read (p :: m) q.1 = Memory.unlisted := Memory.read_of_lt fun r hr => by
            rcases List.mem_cons.mp hr with rfl | hr
            · exact hgt
            · have := hps.1 r hr; omega
          exact absurd (by rw [← hm', h q.1]; simp [Memory.read]) (hn.2 q (by simp))
      have hval : p.2 = q.2 := by simpa [Memory.read, hadr] using h p.1
      obtain rfl : p = q := Prod.ext hadr hval
      rw [ih hmw hnw fun a => ?_]
      by_cases ha : a = p.1
      · subst ha
        rw [Memory.read_of_lt hps.1, Memory.read_of_lt hqs.1]
      · simpa [Memory.read, ha] using h a

end Sys2Proof.Machine
end

