-- ==== Sys2Proof/Laws/PerInstr.lean ====
section
/-! SUPPORT. Statements about every instruction as syntax, one lemma per constructor. -/

namespace Sys2Proof.Laws

/-- The words of an instruction are as many as its length says: one and its constants (R70, R87). -/
def EncodedLength.Statement (i : Instr) : Prop := ∀ t : ModeTable, (encode t i).length = i.length ∧ i.length ≤ 4

/-- An operand owns at most one constant (R77). -/
theorem constants_length_le (o : Operand) : o.constants.length ≤ 1 := by cases o <;> simp [Operand.constants]

/-- The words of an instruction with three operands. -/
theorem encodedLength_of_operands {i : Instr} {d s0 s1 : Operand} (h : i.operands = some (d, s0, s1)) :
    EncodedLength.Statement i := by
  intro t
  have h1 := constants_length_le d
  have h2 := constants_length_le s0
  have h3 := constants_length_le s1
  simp only [encode, Instr.constants, Instr.length, h, operandWords, operandConstants,
    List.length_cons, List.length_append]
  omega

theorem EncodedLength.move (cond : Cond) (c m : Bool) (d s0 s1 : Operand) :
    EncodedLength.Statement (.move cond c m d s0 s1) := encodedLength_of_operands rfl
theorem EncodedLength.sub (cond : Cond) (c m : Bool) (d s0 s1 : Operand) :
    EncodedLength.Statement (.sub cond c m d s0 s1) := encodedLength_of_operands rfl
theorem EncodedLength.mdbl (cond : Cond) (c m : Bool) (d s0 s1 : Operand) :
    EncodedLength.Statement (.mdbl cond c m d s0 s1) := encodedLength_of_operands rfl
theorem EncodedLength.add (cond : Cond) (c m : Bool) (d s0 s1 : Operand) :
    EncodedLength.Statement (.add cond c m d s0 s1) := encodedLength_of_operands rfl
theorem EncodedLength.dbl (cond : Cond) (c m : Bool) (d s0 s1 : Operand) :
    EncodedLength.Statement (.dbl cond c m d s0 s1) := encodedLength_of_operands rfl
theorem EncodedLength.dec (cond : Cond) (c m : Bool) (d s0 s1 : Operand) :
    EncodedLength.Statement (.dec cond c m d s0 s1) := encodedLength_of_operands rfl
theorem EncodedLength.not (cond : Cond) (c m : Bool) (d s0 s1 : Operand) :
    EncodedLength.Statement (.not cond c m d s0 s1) := encodedLength_of_operands rfl
theorem EncodedLength.nor (cond : Cond) (c m : Bool) (d s0 s1 : Operand) :
    EncodedLength.Statement (.nor cond c m d s0 s1) := encodedLength_of_operands rfl
theorem EncodedLength.iand (cond : Cond) (c m : Bool) (d s0 s1 : Operand) :
    EncodedLength.Statement (.iand cond c m d s0 s1) := encodedLength_of_operands rfl
theorem EncodedLength.nand (cond : Cond) (c m : Bool) (d s0 s1 : Operand) :
    EncodedLength.Statement (.nand cond c m d s0 s1) := encodedLength_of_operands rfl
theorem EncodedLength.xor (cond : Cond) (c m : Bool) (d s0 s1 : Operand) :
    EncodedLength.Statement (.xor cond c m d s0 s1) := encodedLength_of_operands rfl
theorem EncodedLength.ior (cond : Cond) (c m : Bool) (d s0 s1 : Operand) :
    EncodedLength.Statement (.ior cond c m d s0 s1) := encodedLength_of_operands rfl
theorem EncodedLength.xnor (cond : Cond) (c m : Bool) (d s0 s1 : Operand) :
    EncodedLength.Statement (.xnor cond c m d s0 s1) := encodedLength_of_operands rfl
theorem EncodedLength.and (cond : Cond) (c m : Bool) (d s0 s1 : Operand) :
    EncodedLength.Statement (.and cond c m d s0 s1) := encodedLength_of_operands rfl
theorem EncodedLength.one (cond : Cond) (c m : Bool) (d s0 s1 : Operand) :
    EncodedLength.Statement (.one cond c m d s0 s1) := encodedLength_of_operands rfl
theorem EncodedLength.or (cond : Cond) (c m : Bool) (d s0 s1 : Operand) :
    EncodedLength.Statement (.or cond c m d s0 s1) := encodedLength_of_operands rfl
theorem EncodedLength.shift0000 (cond : Cond) (m : Bool) (d s0 s1 : Operand) :
    EncodedLength.Statement (.shift0000 cond m d s0 s1) := encodedLength_of_operands rfl
theorem EncodedLength.shift0001 (cond : Cond) (m : Bool) (d s0 s1 : Operand) :
    EncodedLength.Statement (.shift0001 cond m d s0 s1) := encodedLength_of_operands rfl
theorem EncodedLength.shift0010 (cond : Cond) (m : Bool) (d s0 s1 : Operand) :
    EncodedLength.Statement (.shift0010 cond m d s0 s1) := encodedLength_of_operands rfl
theorem EncodedLength.shift0011 (cond : Cond) (m : Bool) (d s0 s1 : Operand) :
    EncodedLength.Statement (.shift0011 cond m d s0 s1) := encodedLength_of_operands rfl
theorem EncodedLength.shift0100 (cond : Cond) (m : Bool) (d s0 s1 : Operand) :
    EncodedLength.Statement (.shift0100 cond m d s0 s1) := encodedLength_of_operands rfl
theorem EncodedLength.shift0101 (cond : Cond) (m : Bool) (d s0 s1 : Operand) :
    EncodedLength.Statement (.shift0101 cond m d s0 s1) := encodedLength_of_operands rfl
theorem EncodedLength.shift0110 (cond : Cond) (m : Bool) (d s0 s1 : Operand) :
    EncodedLength.Statement (.shift0110 cond m d s0 s1) := encodedLength_of_operands rfl
theorem EncodedLength.shift0111 (cond : Cond) (m : Bool) (d s0 s1 : Operand) :
    EncodedLength.Statement (.shift0111 cond m d s0 s1) := encodedLength_of_operands rfl
theorem EncodedLength.shift1000 (cond : Cond) (m : Bool) (d s0 s1 : Operand) :
    EncodedLength.Statement (.shift1000 cond m d s0 s1) := encodedLength_of_operands rfl
theorem EncodedLength.shift1001 (cond : Cond) (m : Bool) (d s0 s1 : Operand) :
    EncodedLength.Statement (.shift1001 cond m d s0 s1) := encodedLength_of_operands rfl
theorem EncodedLength.shift1010 (cond : Cond) (m : Bool) (d s0 s1 : Operand) :
    EncodedLength.Statement (.shift1010 cond m d s0 s1) := encodedLength_of_operands rfl
theorem EncodedLength.shift1011 (cond : Cond) (m : Bool) (d s0 s1 : Operand) :
    EncodedLength.Statement (.shift1011 cond m d s0 s1) := encodedLength_of_operands rfl
theorem EncodedLength.shift1100 (cond : Cond) (m : Bool) (d s0 s1 : Operand) :
    EncodedLength.Statement (.shift1100 cond m d s0 s1) := encodedLength_of_operands rfl
theorem EncodedLength.shift1101 (cond : Cond) (m : Bool) (d s0 s1 : Operand) :
    EncodedLength.Statement (.shift1101 cond m d s0 s1) := encodedLength_of_operands rfl
theorem EncodedLength.shift1110 (cond : Cond) (m : Bool) (d s0 s1 : Operand) :
    EncodedLength.Statement (.shift1110 cond m d s0 s1) := encodedLength_of_operands rfl
theorem EncodedLength.shift1111 (cond : Cond) (m : Bool) (d s0 s1 : Operand) :
    EncodedLength.Statement (.shift1111 cond m d s0 s1) := encodedLength_of_operands rfl
theorem EncodedLength.halt (cond : Cond) (rest : BitVec 26) : EncodedLength.Statement (.halt cond rest) :=
  fun _ => ⟨rfl, (by decide : 1 ≤ 4)⟩

end Sys2Proof.Laws
end

