-- ==== Sys2Proof/Laws/ShiftTable.lean ====
section
/-! SUPPORT. What the limit of SHIFT_TABLE says (R145): a table within it is part of one that knows all sixteen shifts
and has `0<0` and `C>C`, and an entry that is known is what the opcode allows. -/

namespace Sys2Proof

/-- What a known entry allows is that entry alone. -/
theorem ShiftTable.allows_iff_of_known {t : ShiftTable} {opcode : Fin 16} {desc : ShiftDesc}
    (h : t[opcode] ≠ none) : t.allows opcode desc ↔ t[opcode] = some desc := or_iff_right h

/-- A table that knows every entry is within its limit exactly if `0<0` and `C>C` both appear in it (R145). -/
theorem ShiftTable.wf_iff_of_known {t : ShiftTable} (h : ∀ opcode : Fin 16, t[opcode] ≠ none) :
    t.wf ↔ (∃ left : Fin 16, t[left] = some .zeroLeftZero) ∧ ∃ right : Fin 16, t[right] = some .carryRightCarry := by
  constructor
  · rintro ⟨left, right, -, hl, hr⟩
    exact ⟨⟨left, (allows_iff_of_known (h left)).mp hl⟩, right, (allows_iff_of_known (h right)).mp hr⟩
  · rintro ⟨⟨left, hl⟩, right, hr⟩
    refine ⟨left, right, ?_, .inr hl, .inr hr⟩
    rintro rfl
    exact absurd (hl.symm.trans hr) (by decide)

/-- A table is within its limit exactly if its known entries are those of some table of sixteen descriptors in which
`0<0` and `C>C` both appear (R145). -/
theorem ShiftTable.wf_iff_completes {t : ShiftTable} :
    t.wf ↔ ∃ full : Fin 16 → ShiftDesc, (∀ opcode, t.allows opcode (full opcode)) ∧
      (∃ left, full left = .zeroLeftZero) ∧ ∃ right, full right = .carryRightCarry := by
  constructor
  · rintro ⟨left, right, hne, hl, hr⟩
    refine ⟨fun opcode => if opcode = left then .zeroLeftZero else if opcode = right then .carryRightCarry else
      t[opcode].getD .zeroLeftZero, fun opcode => ?_, ⟨left, by simp⟩, right, by simp [hne.symm]⟩
    by_cases e : opcode = left
    · simpa only [e, if_true] using hl
    by_cases e' : opcode = right
    · simpa only [e', if_neg hne.symm, if_true] using hr
    · simp only [e, e', if_false, ShiftTable.allows]
      cases t[opcode] <;> simp
  · rintro ⟨full, h, ⟨left, hl⟩, right, hr⟩
    refine ⟨left, right, ?_, hl ▸ h left, hr ▸ h right⟩
    rintro rfl
    exact absurd (hl.symm.trans hr) (by decide)

end Sys2Proof
end

