-- ==== Sys2Proof/Laws/Step.lean ====
section
/-! SUPPORT. What a fetch, an interrupt entry and a whole step can answer, said once: later proofs cite these instead of
unfolding them. -/

namespace Sys2Proof.Machine

/-- Fetching cells answers exactly if all are admitted, and then their contents in order (R31, R53). -/
theorem fetchCells_eq_next {s : State} {n : Nat} {a : Word}
    (h : ∀ k, k < n → s.admitted (a + BitVec.ofNat 32 k) = true) :
    fetchCells s n a = .next ((List.range n).map fun k => s.cell (a + BitVec.ofNat 32 k)) := by
  induction n generalizing a with
  | zero => rfl
  | succ n ih =>
    have h0 := h 0 (by omega)
    have e (k : Nat) : a + 1 + BitVec.ofNat 32 k = a + BitVec.ofNat 32 (k + 1) := by
      rw [BitVec.ofNat_add, BitVec.add_assoc, BitVec.add_comm (BitVec.ofNat 32 k)]; rfl
    simp only [BitVec.add_zero] at h0
    rw [fetchCells, load, if_pos h0, andThen_next, ih fun k hk => by rw [e]; exact h (k + 1) (by omega), andThen_next,
      List.range_succ_eq_map]
    simp only [List.map_cons, List.map_map, Function.comp_def, e, BitVec.add_zero]

/-- An interrupt entry that answers a next state writes R13, R14 and R15 and nothing else (R201, R202, R208). -/
theorem State.takeInterrupt_eq_next {s t : State} :
    s.takeInterrupt = .next t ↔
      (∀ a ∈ Config.interruptReads s.polls ((s.reg 14).extractLsb' 0 24) s.mem, s.admitted a = true) ∧
        t = ((s.writeReg 13 (s.reg 15)).writeReg 14 (interruptStatus s.polls (s.reg 14))).writeReg 15
          (Config.interruptTarget s.polls ((s.reg 14).extractLsb' 0 24) s.mem) := by
  unfold State.takeInterrupt
  dsimp only
  generalize Config.interruptReads s.polls ((s.reg 14).extractLsb' 0 24) s.mem = reads
  cases hf : reads.find? fun a => !s.admitted a with
  | none =>
    have h : ∀ a ∈ reads, s.admitted a = true := by simpa using List.find?_eq_none.mp hf
    exact ⟨fun e => ⟨h, (Host.Outcome.next.inj e).symm⟩, fun e => by rw [e.2]⟩
  | some a =>
    have ha : s.admitted a = false := by simpa using List.find?_some hf
    simp only [reduceCtorEq, false_iff, not_and]
    intro h
    exact absurd (h a (List.mem_of_find?_eq_some hf)) (by simp [ha])

/-- An interrupt entry is never refused. -/
theorem State.takeInterrupt_ne_refused (s : State) (r : Refusal) : s.takeInterrupt ≠ .refused r := by
  unfold State.takeInterrupt
  dsimp only
  split <;> simp

/-- Everything a step can answer as a next state: a halted machine stays, a running one enters an interrupt or executes
the instruction it fetches (R80, R162, R208). -/
theorem step_eq_next {s t : State} (h : step s = .next t) :
    (s.halted = true ∧ t = s) ∨
      (s.halted = false ∧
        (s.polled.takeInterrupt = .next t ∨ ∃ i, fetch s.polled = .next i ∧ exec i s.polled = .next t)) := by
  unfold step at h
  cases hs : s.halted with
  | true =>
    rw [hs] at h
    cases h
    exact .inl ⟨rfl, rfl⟩
  | false =>
    simp only [hs, Bool.false_eq_true, if_false, cycle] at h
    refine .inr ⟨rfl, ?_⟩
    split at h
    · exact .inl h
    · exact .inr (andThen_eq_next.mp h)

end Sys2Proof.Machine
end

