-- ==== Sys2Proof/Tests/Slice0.lean ====
section
/-! SUPPORT. The model's own tests. Expected values are those of spec 95_test_vectors.md, or are worked out by hand from
the rule a test names; then, for every statement with hypotheses, states and operands that meet them. -/

namespace Sys2Proof.Tests

open Machine

/-- The condition `?1`. -/
def always : Cond := ⟨false, .always⟩

/-- A state with these parameters, registers and cells. -/
def stateWith (c : Config) (registers : List (RegNo × Word)) (cells : List (Word × Word)) : State :=
  cells.foldl (fun s p => s.writeCell p.1 p.2) (registers.foldl (fun s p => s.writeReg p.1 p.2) (State.start c))

/-- Parameters in which one shift opcode is known. -/
def shiftAt (opcode : Fin 16) (desc : ShiftDesc) : Config :=
  { defaultConfig with shiftTable := defaultConfig.shiftTable.set opcode.val (some desc) }

/-- Parameters in which every shift opcode is known: 0000 is `0<0`, 0001 is `C>C` and every other is this one. -/
def allShifts (desc : ShiftDesc) : Config :=
  { defaultConfig with shiftTable :=
      ((Vector.replicate 16 (some desc)).set 0 (some .zeroLeftZero)).set 1 (some .carryRightCarry) }

/-- What a next state shows through `f`. -/
def after {α : Type} (x : Result State) (f : State → α) : Option α :=
  match x with
  | .next t => some (f t)
  | .fault _ => none
  | .refused _ => none

/-- R3 and R14 after an instruction on R1 and R2 with this R14. -/
def run (c : Config) (i : Instr) (r1 r2 r14 : Word) : Option (Word × Word) :=
  after (exec i (stateWith c [(1, r1), (2, r2), (14, r14)] [])) fun t => (t.reg 3, t.reg 14)

/-! ### Well-formed instructions: one that passes and one that each check refuses (R183, R161) -/

theorem test_wellFormed : (Instr.add always true true (.memConst 3 7) (.const 2 1) (.preDec 0)).wellFormed = true := by
  decide

theorem test_wellFormed_refuses_constant_destination :
    (Instr.move always false false (.const 2 16) (.reg 3) (.reg 0)).wellFormed = false := by decide

theorem test_wellFormed_refuses_halt_with_junk : (Instr.halt always 1).wellFormed = false := by decide

theorem test_wellFormed_halt : (Instr.halt always 0).wellFormed = true := by decide

/-! ### Decoding: for every instruction a word written bit by bit from its format
(R73 to R78, R81, R82, R100, R101, R167). The bits read: condition 31:28, group and C and M, opcode 24:21, then mode and
register of the destination, of source 0 and of source 1. -/

theorem test_decode_move :
    decode .reconstruction [0b0011_000_0000_000_0001_111_0010_011_0101, 0x11111111, 0x22222222] =
      .ok (.move ⟨false, .z⟩ false false (.reg 1) (.memConst 2 0x11111111) (.const 5 0x22222222), []) := by decide

theorem test_decode_sub :
    decode .reconstruction [0b1000_010_0001_001_0100_010_1001_000_0000] =
      .ok (.sub ⟨true, .always⟩ true false (.preDec 4) (.postInc 9) (.reg 0), []) := by decide

theorem test_decode_mdbl :
    decode .reconstruction [0b1101_001_0010_010_0111_101_0000_101_1011] =
      .ok (.mdbl ⟨true, .v⟩ false true (.postInc 7) (.memPreDec 0) (.memPreDec 11), []) := by decide

theorem test_decode_add :
    decode .reconstruction [0b0010_011_0011_100_1010_000_0111_010_0110] =
      .ok (.add ⟨false, .c⟩ true true (.mem 10) (.reg 7) (.postInc 6), []) := by decide

theorem test_decode_dbl :
    decode .reconstruction [0b0111_000_0100_101_1101_011_1110_111_0001, 0x11111111, 0x22222222] =
      .ok (.dbl ⟨false, .i⟩ false false (.memPreDec 13) (.const 14 0x11111111) (.memConst 1 0x22222222), []) := by decide

theorem test_decode_dec :
    decode .reconstruction [0b1100_010_0101_110_0000_110_0101_100_1100] =
      .ok (.dec ⟨true, .n⟩ true false (.memPostInc 0) (.memPostInc 5) (.mem 12), []) := by decide

theorem test_decode_not :
    decode .reconstruction [0b0001_001_0110_111_0011_001_1100_001_0111, 0x11111111] =
      .ok (.not ⟨false, .x⟩ false true (.memConst 3 0x11111111) (.preDec 12) (.preDec 7), []) := by decide

theorem test_decode_nor :
    decode .reconstruction [0b0110_011_0111_011_0110_100_0011_110_0010, 0x11111111] =
      .ok (.nor ⟨false, .m⟩ true true (.const 6 0x11111111) (.mem 3) (.memPostInc 2), []) := by decide

theorem test_decode_iand :
    decode .reconstruction [0b1011_000_1000_000_1001_111_1010_011_1101, 0x11111111, 0x22222222] =
      .ok (.iand ⟨true, .z⟩ false false (.reg 9) (.memConst 10 0x11111111) (.const 13 0x22222222), []) := by decide

theorem test_decode_nand :
    decode .reconstruction [0b0000_010_1001_001_1100_010_0001_000_1000] =
      .ok (.nand ⟨false, .always⟩ true false (.preDec 12) (.postInc 1) (.reg 8), []) := by decide

theorem test_decode_xor :
    decode .reconstruction [0b0101_001_1010_010_1111_101_1000_101_0011] =
      .ok (.xor ⟨false, .v⟩ false true (.postInc 15) (.memPreDec 8) (.memPreDec 3), []) := by decide

theorem test_decode_ior :
    decode .reconstruction [0b1010_011_1011_100_0010_000_1111_010_1110] =
      .ok (.ior ⟨true, .c⟩ true true (.mem 2) (.reg 15) (.postInc 14), []) := by decide

theorem test_decode_xnor :
    decode .reconstruction [0b1111_000_1100_101_0101_011_0110_111_1001, 0x11111111, 0x22222222] =
      .ok (.xnor ⟨true, .i⟩ false false (.memPreDec 5) (.const 6 0x11111111) (.memConst 9 0x22222222), []) := by decide

theorem test_decode_and :
    decode .reconstruction [0b0100_010_1101_110_1000_110_1101_100_0100] =
      .ok (.and ⟨false, .n⟩ true false (.memPostInc 8) (.memPostInc 13) (.mem 4), []) := by decide

theorem test_decode_one :
    decode .reconstruction [0b1001_001_1110_111_1011_001_0100_001_1111, 0x11111111] =
      .ok (.one ⟨true, .x⟩ false true (.memConst 11 0x11111111) (.preDec 4) (.preDec 15), []) := by decide

theorem test_decode_or :
    decode .reconstruction [0b1110_011_1111_011_1110_100_1011_110_1010, 0x11111111] =
      .ok (.or ⟨true, .m⟩ true true (.const 14 0x11111111) (.mem 11) (.memPostInc 10), []) := by decide

theorem test_decode_shift0000 :
    decode .reconstruction [0b0011_100_0000_000_0001_111_0010_011_0101, 0x11111111, 0x22222222] =
      .ok (.shift0000 ⟨false, .z⟩ false (.reg 1) (.memConst 2 0x11111111) (.const 5 0x22222222), []) := by decide

theorem test_decode_shift0001 :
    decode .reconstruction [0b1000_100_0001_001_0100_010_1001_000_0000] =
      .ok (.shift0001 ⟨true, .always⟩ false (.preDec 4) (.postInc 9) (.reg 0), []) := by decide

theorem test_decode_shift0010 :
    decode .reconstruction [0b1101_101_0010_010_0111_101_0000_101_1011] =
      .ok (.shift0010 ⟨true, .v⟩ true (.postInc 7) (.memPreDec 0) (.memPreDec 11), []) := by decide

theorem test_decode_shift0011 :
    decode .reconstruction [0b0010_101_0011_100_1010_000_0111_010_0110] =
      .ok (.shift0011 ⟨false, .c⟩ true (.mem 10) (.reg 7) (.postInc 6), []) := by decide

theorem test_decode_shift0100 :
    decode .reconstruction [0b0111_100_0100_101_1101_011_1110_111_0001, 0x11111111, 0x22222222] =
      .ok (.shift0100 ⟨false, .i⟩ false (.memPreDec 13) (.const 14 0x11111111) (.memConst 1 0x22222222), []) := by decide

theorem test_decode_shift0101 :
    decode .reconstruction [0b1100_100_0101_110_0000_110_0101_100_1100] =
      .ok (.shift0101 ⟨true, .n⟩ false (.memPostInc 0) (.memPostInc 5) (.mem 12), []) := by decide

theorem test_decode_shift0110 :
    decode .reconstruction [0b0001_101_0110_111_0011_001_1100_001_0111, 0x11111111] =
      .ok (.shift0110 ⟨false, .x⟩ true (.memConst 3 0x11111111) (.preDec 12) (.preDec 7), []) := by decide

theorem test_decode_shift0111 :
    decode .reconstruction [0b0110_101_0111_011_0110_100_0011_110_0010, 0x11111111] =
      .ok (.shift0111 ⟨false, .m⟩ true (.const 6 0x11111111) (.mem 3) (.memPostInc 2), []) := by decide

theorem test_decode_shift1000 :
    decode .reconstruction [0b1011_100_1000_000_1001_111_1010_011_1101, 0x11111111, 0x22222222] =
      .ok (.shift1000 ⟨true, .z⟩ false (.reg 9) (.memConst 10 0x11111111) (.const 13 0x22222222), []) := by decide

theorem test_decode_shift1001 :
    decode .reconstruction [0b0000_100_1001_001_1100_010_0001_000_1000] =
      .ok (.shift1001 ⟨false, .always⟩ false (.preDec 12) (.postInc 1) (.reg 8), []) := by decide

theorem test_decode_shift1010 :
    decode .reconstruction [0b0101_101_1010_010_1111_101_1000_101_0011] =
      .ok (.shift1010 ⟨false, .v⟩ true (.postInc 15) (.memPreDec 8) (.memPreDec 3), []) := by decide

theorem test_decode_shift1011 :
    decode .reconstruction [0b1010_101_1011_100_0010_000_1111_010_1110] =
      .ok (.shift1011 ⟨true, .c⟩ true (.mem 2) (.reg 15) (.postInc 14), []) := by decide

theorem test_decode_shift1100 :
    decode .reconstruction [0b1111_100_1100_101_0101_011_0110_111_1001, 0x11111111, 0x22222222] =
      .ok (.shift1100 ⟨true, .i⟩ false (.memPreDec 5) (.const 6 0x11111111) (.memConst 9 0x22222222), []) := by decide

theorem test_decode_shift1101 :
    decode .reconstruction [0b0100_100_1101_110_1000_110_1101_100_0100] =
      .ok (.shift1101 ⟨false, .n⟩ false (.memPostInc 8) (.memPostInc 13) (.mem 4), []) := by decide

theorem test_decode_shift1110 :
    decode .reconstruction [0b1001_101_1110_111_1011_001_0100_001_1111, 0x11111111] =
      .ok (.shift1110 ⟨true, .x⟩ true (.memConst 11 0x11111111) (.preDec 4) (.preDec 15), []) := by decide

theorem test_decode_shift1111 :
    decode .reconstruction [0b1110_101_1111_011_1110_100_1011_110_1010, 0x11111111] =
      .ok (.shift1111 ⟨true, .m⟩ true (.const 14 0x11111111) (.mem 11) (.memPostInc 10), []) := by decide

theorem test_decode_halt : decode .reconstruction [0b1011_11_00000000000000000000000000] = .ok (.halt ⟨true, .z⟩ 0, []) := by decide

/-- `0FFFFFFF`: a HALT whatever bits 25:0 hold, of length 1 (95_test_vectors.md section 2.6). -/
theorem test_decode_halt_junk : decode .reconstruction [0x0FFFFFFF, 5] = .ok (.halt always 0x3FFFFFF, [5]) := by decide

theorem test_decode_rejects_missing_constant : decode .reconstruction [0x007C1830, 0x80, 0x11] = .error .missingConstant := by decide

theorem test_decode_rejects_nothing : decode .reconstruction [] = .error .noInstructionWord := by decide

/-- Another MODE_TABLE within its limits, with the codes 000 and 100 exchanged: the same word reads memory. -/
def swappedModes : ModeTable := #v[.mem, .preDec, .postInc, .const, .reg, .memPreDec, .memPostInc, .memConst]

theorem test_decode_other_modes : decode swappedModes [0x00004100] =
    .ok (.move always false false (.mem 1) (.mem 2) (.mem 0), []) := by decide

/-- The host's numbering: the constant of the second word (bits 63:32). -/
theorem test_decodeTableWord :
    decodeTableWord 64 (0x10 * 2 ^ 32 + 0x00005900) =
      some (.move always false false (.reg 1) (.const 2 0x10) (.reg 0)) := by decide

/-! ### ALU instructions (95_test_vectors.md section 2.2): result and R14 with M set. Without carry-in the C bit of R14
is set before, so that a wrong carry-in shows. -/

theorem test_move_1 : run defaultConfig (.move always true true (.reg 3) (.reg 1) (.reg 2)) 0xFFFFFFFF 0 0x05000000 =
    some (0x00000000, 0x0D000000) := by decide

theorem test_move_2 : run defaultConfig (.move always true true (.reg 3) (.reg 1) (.reg 2)) 0x7FFFFFFF 0 0x05000000 =
    some (0x80000000, 0x31000000) := by decide

theorem test_sub_1 : run defaultConfig (.sub always false true (.reg 3) (.reg 1) (.reg 2)) 0x00000003 0x00000005 0x05000000 =
    some (0xFFFFFFFE, 0x15000000) := by decide

theorem test_sub_2 : run defaultConfig (.sub always false true (.reg 3) (.reg 1) (.reg 2)) 0x7FFFFFFF 0xFFFFFFFF 0x05000000 =
    some (0x80000000, 0x35000000) := by decide

theorem test_mdbl_1 : run defaultConfig (.mdbl always false true (.reg 3) (.reg 1) (.reg 2)) 0x0F0F0F0F 0x00FF00FF 0x05000000 =
    some (0x0F1E0F1E, 0x01000000) := by decide

theorem test_mdbl_2 : run defaultConfig (.mdbl always true true (.reg 3) (.reg 1) (.reg 2)) 0x00000003 0x00000001 0x05000000 =
    some (0x00000005, 0x01000000) := by decide

theorem test_add_1 : run defaultConfig (.add always true true (.reg 3) (.reg 1) (.reg 2)) 0xFFFFFFFF 0xFFFFFFFF 0x05000000 =
    some (0xFFFFFFFF, 0x17000000) := by decide

theorem test_add_2 : run defaultConfig (.add always false true (.reg 3) (.reg 1) (.reg 2)) 0x80000000 0x80000000 0x05000000 =
    some (0x00000000, 0x2D000000) := by decide

theorem test_dbl_1 : run defaultConfig (.dbl always false true (.reg 3) (.reg 1) (.reg 2)) 0x40000000 0 0x05000000 =
    some (0x80000000, 0x31000000) := by decide

theorem test_dbl_2 : run defaultConfig (.dbl always true true (.reg 3) (.reg 1) (.reg 2)) 0x00000003 0 0x05000000 =
    some (0x00000007, 0x01000000) := by decide

theorem test_dec_1 : run defaultConfig (.dec always false true (.reg 3) (.reg 1) (.reg 2)) 0x00000000 0 0x05000000 =
    some (0xFFFFFFFF, 0x17000000) := by decide

theorem test_dec_2 : run defaultConfig (.dec always false true (.reg 3) (.reg 1) (.reg 2)) 0x80000000 0 0x05000000 =
    some (0x7FFFFFFF, 0x21000000) := by decide

theorem test_not_1 : run defaultConfig (.not always true true (.reg 3) (.reg 1) (.reg 2)) 0x80000000 0 0x05000000 =
    some (0x80000000, 0x31000000) := by decide

theorem test_not_2 : run defaultConfig (.not always false true (.reg 3) (.reg 1) (.reg 2)) 0x0F0F0F0F 0 0x05000000 =
    some (0xF0F0F0F0, 0x11000000) := by decide

theorem test_nor_1 : run defaultConfig (.nor always false true (.reg 3) (.reg 1) (.reg 2)) 0x0F0F0000 0x00FF00FF 0x05000000 =
    some (0xF000FF00, 0x11000000) := by decide

theorem test_nor_2 : run defaultConfig (.nor always false true (.reg 3) (.reg 1) (.reg 2)) 0x00000000 0x00000000 0x05000000 =
    some (0xFFFFFFFF, 0x13000000) := by decide

theorem test_iand_1 : run defaultConfig (.iand always false true (.reg 3) (.reg 1) (.reg 2)) 0x0F0F0000 0x00FF00FF 0x05000000 =
    some (0x00F000FF, 0x01000000) := by decide

theorem test_iand_2 : run defaultConfig (.iand always false true (.reg 3) (.reg 1) (.reg 2)) 0xFFFFFFFF 0xFFFFFFFF 0x05000000 =
    some (0x00000000, 0x09000000) := by decide

theorem test_nand_1 : run defaultConfig (.nand always false true (.reg 3) (.reg 1) (.reg 2)) 0x0F0F0000 0x00FF00FF 0x05000000 =
    some (0xFFF0FFFF, 0x11000000) := by decide

theorem test_nand_2 : run defaultConfig (.nand always false true (.reg 3) (.reg 1) (.reg 2)) 0x00000000 0x00000000 0x05000000 =
    some (0xFFFFFFFF, 0x13000000) := by decide

theorem test_xor_1 : run defaultConfig (.xor always false true (.reg 3) (.reg 1) (.reg 2)) 0x0F0F0000 0x00FF00FF 0x05000000 =
    some (0x0FF000FF, 0x01000000) := by decide

theorem test_xor_2 : run defaultConfig (.xor always false true (.reg 3) (.reg 1) (.reg 2)) 0x55555555 0xAAAAAAAA 0x05000000 =
    some (0xFFFFFFFF, 0x13000000) := by decide

theorem test_ior_1 : run defaultConfig (.ior always false true (.reg 3) (.reg 1) (.reg 2)) 0x0F0F0000 0x00FF00FF 0x05000000 =
    some (0xF0FFFFFF, 0x11000000) := by decide

theorem test_ior_2 : run defaultConfig (.ior always false true (.reg 3) (.reg 1) (.reg 2)) 0x00000000 0x00000000 0x05000000 =
    some (0xFFFFFFFF, 0x13000000) := by decide

theorem test_xnor_1 : run defaultConfig (.xnor always false true (.reg 3) (.reg 1) (.reg 2)) 0x0F0F0000 0x00FF00FF 0x05000000 =
    some (0xF00FFF00, 0x11000000) := by decide

theorem test_xnor_2 : run defaultConfig (.xnor always false true (.reg 3) (.reg 1) (.reg 2)) 0x55555555 0xAAAAAAAA 0x05000000 =
    some (0x00000000, 0x09000000) := by decide

theorem test_and_1 : run defaultConfig (.and always false true (.reg 3) (.reg 1) (.reg 2)) 0x0F0F0000 0x00FF00FF 0x05000000 =
    some (0x000F0000, 0x01000000) := by decide

theorem test_and_2 : run defaultConfig (.and always false true (.reg 3) (.reg 1) (.reg 2)) 0x55555555 0xAAAAAAAA 0x05000000 =
    some (0x00000000, 0x09000000) := by decide

theorem test_one_1 : run defaultConfig (.one always false true (.reg 3) (.reg 1) (.reg 2)) 0xDEADBEEF 0x12345678 0x05000000 =
    some (0x00000001, 0x01000000) := by decide

theorem test_one_2 : run defaultConfig (.one always true true (.reg 3) (.reg 1) (.reg 2)) 0x00000000 0x00000000 0x05000000 =
    some (0x00000002, 0x01000000) := by decide

theorem test_or_1 : run defaultConfig (.or always false true (.reg 3) (.reg 1) (.reg 2)) 0x0F0F0000 0x00FF00FF 0x05000000 =
    some (0x0FFF00FF, 0x01000000) := by decide

theorem test_or_2 : run defaultConfig (.or always false true (.reg 3) (.reg 1) (.reg 2)) 0x55555555 0xAAAAAAAA 0x05000000 =
    some (0xFFFFFFFF, 0x13000000) := by decide

/-! ### Shift instructions (95_test_vectors.md section 2.3), each with its opcode's entry known and no other -/

theorem test_shift0000 : run (shiftAt 0 .zeroLeftZero) (.shift0000 always true (.reg 3) (.reg 1) (.reg 2)) 0xC0000001 0 0x21000000 =
    some (0x80000002, 0x11000000) := by decide

theorem test_shift0001 : run (shiftAt 1 .carryRightCarry) (.shift0001 always true (.reg 3) (.reg 1) (.reg 2)) 0x00000003 0 0x21000000 =
    some (0x00000001, 0x05000000) := by decide

theorem test_shift0010 : run (shiftAt 2 .carryRightCarry) (.shift0010 always true (.reg 3) (.reg 1) (.reg 2)) 0xFFFFFFFF 0 0x21000000 =
    some (0x7FFFFFFF, 0x05000000) := by decide

theorem test_shift0011 : run (shiftAt 3 .zeroLeftZero) (.shift0011 always true (.reg 3) (.reg 1) (.reg 2)) 0x80000000 0 0x25000000 =
    some (0x00000000, 0x0D000000) := by decide

theorem test_shift0100 : run (shiftAt 4 .carryRightCarry) (.shift0100 always true (.reg 3) (.reg 1) (.reg 2)) 0x00000001 0 0x25000000 =
    some (0x80000000, 0x15000000) := by decide

theorem test_shift0101 : run (shiftAt 5 .carryRightCarry) (.shift0101 always true (.reg 3) (.reg 1) (.reg 2)) 0x80000000 0 0x21000000 =
    some (0x40000000, 0x01000000) := by decide

theorem test_shift0110 : run (shiftAt 6 .zeroLeftZero) (.shift0110 always true (.reg 3) (.reg 1) (.reg 2)) 0x40000000 0 0x21000000 =
    some (0x80000000, 0x11000000) := by decide

theorem test_shift0111 : run (shiftAt 7 .carryRightCarry) (.shift0111 always true (.reg 3) (.reg 1) (.reg 2)) 0x00000000 0 0x25000000 =
    some (0x80000000, 0x11000000) := by decide

theorem test_shift1000 : run (shiftAt 8 .zeroLeftZero) (.shift1000 always false (.reg 3) (.reg 1) (.reg 2)) 0xC0000001 0 0x21000000 =
    some (0x80000002, 0x21000000) := by decide

theorem test_shift1001 : run (shiftAt 9 .carryRightCarry) (.shift1001 always false (.reg 3) (.reg 1) (.reg 2)) 0x00000003 0 0x21000000 =
    some (0x00000001, 0x25000000) := by decide

theorem test_shift1010 : run (shiftAt 10 .carryRightCarry) (.shift1010 always false (.reg 3) (.reg 1) (.reg 2)) 0xFFFFFFFF 0 0x21000000 =
    some (0x7FFFFFFF, 0x25000000) := by decide

theorem test_shift1011 : run (shiftAt 11 .zeroLeftZero) (.shift1011 always false (.reg 3) (.reg 1) (.reg 2)) 0x80000000 0 0x25000000 =
    some (0x00000000, 0x25000000) := by decide

theorem test_shift1100 : run (shiftAt 12 .carryRightCarry) (.shift1100 always false (.reg 3) (.reg 1) (.reg 2)) 0x00000001 0 0x25000000 =
    some (0x80000000, 0x25000000) := by decide

theorem test_shift1101 : run (shiftAt 13 .carryRightCarry) (.shift1101 always false (.reg 3) (.reg 1) (.reg 2)) 0x80000000 0 0x21000000 =
    some (0x40000000, 0x21000000) := by decide

theorem test_shift1110 : run (shiftAt 14 .zeroLeftZero) (.shift1110 always false (.reg 3) (.reg 1) (.reg 2)) 0x40000000 0 0x21000000 =
    some (0x80000000, 0x21000000) := by decide

theorem test_shift1111 : run (shiftAt 15 .carryRightCarry) (.shift1111 always false (.reg 3) (.reg 1) (.reg 2)) 0x00000000 0 0x25000000 =
    some (0x80000000, 0x21000000) := by decide

theorem test_shift_unknown_refused :
    exec (.shift0110 always false (.reg 3) (.reg 1) (.reg 2)) State.reset = .refused (.shiftOpcodeUnknown 6) := rfl

/-! ### HALT (95_test_vectors.md section 2.4) -/

theorem test_halt : after (step (stateWith defaultConfig [(14, 0x09000000), (15, 5)] [(5, 0x3C000000)]))
    (fun t => (t.halted, t.reg 15)) = some (true, 6) := by decide

theorem test_halt_condition_false : after (step (stateWith defaultConfig [(14, 0x01000000), (15, 5)] [(5, 0x3C000000)]))
    (fun t => (t.halted, t.reg 15)) = some (false, 6) := by decide

/-! ### Condition codes (95_test_vectors.md section 2.1) -/

theorem test_conditions : [0x0, 0x8, 0x3, 0xB, 0x4, 0xC, 0x2, 0x1, 0x5, 0x6, 0xF].map
    (fun f => (stateWith defaultConfig [(14, 0x09000000)] []).meets (Cond.ofField f)) =
      [true, false, true, false, false, true, false, false, false, false, true] := by decide

theorem test_conditions_high : [7, 6, 5, 4, 3, 2, 1, 0].map
    (fun f => (stateWith defaultConfig [(14, 0xD3FFFFFF)] []).meets (Cond.ofField f)) =
      [true, true, false, true, false, false, true, true] := by decide

/-! ### Addressing modes (95_test_vectors.md section 2.5): R1, R2, R15 and the cells 4F, 50 and 60 after one step -/

/-- The start state of section 2.5 with the instruction's words at address 0. -/
def modeState (words : List Word) : State :=
  placeAtPc (stateWith defaultConfig [(2, 0x50), (3, 0x77)] [(0x4F, 0xBB), (0x50, 0xAA), (0x60, 0xCC)]) words

def afterMode (words : List Word) : Option (List Word) :=
  after (step (modeState words)) fun t => [t.reg 1, t.reg 2, t.reg 15, t.cell 0x4F, t.cell 0x50, t.cell 0x60]

theorem test_mode_src_register : afterMode [0x00004100] = some [0x50, 0x50, 0x1, 0xBB, 0xAA, 0xCC] := by decide

theorem test_mode_src_preDec : afterMode [0x00004900] = some [0x4F, 0x4F, 0x1, 0xBB, 0xAA, 0xCC] := by decide

theorem test_mode_src_postInc : afterMode [0x00005100] = some [0x50, 0x51, 0x1, 0xBB, 0xAA, 0xCC] := by decide

theorem test_mode_src_const : afterMode [0x00005900, 0x10] = some [0x60, 0x50, 0x2, 0xBB, 0xAA, 0xCC] := by decide

theorem test_mode_src_mem : afterMode [0x00006100] = some [0xAA, 0x50, 0x1, 0xBB, 0xAA, 0xCC] := by decide

theorem test_mode_src_memPreDec : afterMode [0x00006900] = some [0xBB, 0x4F, 0x1, 0xBB, 0xAA, 0xCC] := by decide

theorem test_mode_src_memPostInc : afterMode [0x00007100] = some [0xAA, 0x51, 0x1, 0xBB, 0xAA, 0xCC] := by decide

theorem test_mode_src_memConst : afterMode [0x00007900, 0x10] = some [0xCC, 0x50, 0x2, 0xBB, 0xAA, 0xCC] := by decide

theorem test_mode_dst_register : afterMode [0x00008180] = some [0x0, 0x77, 0x1, 0xBB, 0xAA, 0xCC] := by decide

theorem test_mode_dst_preDec : afterMode [0x00048180] = some [0x0, 0x77, 0x1, 0xBB, 0xAA, 0xCC] := by decide

theorem test_mode_dst_postInc : afterMode [0x00088180] = some [0x0, 0x78, 0x1, 0xBB, 0xAA, 0xCC] := by decide

theorem test_mode_dst_mem : afterMode [0x00108180] = some [0x0, 0x50, 0x1, 0xBB, 0x77, 0xCC] := by decide

theorem test_mode_dst_memPreDec : afterMode [0x00148180] = some [0x0, 0x4F, 0x1, 0x77, 0xAA, 0xCC] := by decide

theorem test_mode_dst_memPostInc : afterMode [0x00188180] = some [0x0, 0x51, 0x1, 0xBB, 0x77, 0xCC] := by decide

theorem test_mode_dst_memConst : afterMode [0x001C8180, 0x10] = some [0x0, 0x50, 0x2, 0xBB, 0xAA, 0x77] := by decide

theorem test_mode_dst_const_refused : step (modeState [0x000C8180, 0x10]) = .refused .destMode011 := rfl

/-- `ADD R1++, R1++, R1++` with R1 = 5 leaves C (section 2.5). -/
theorem test_shared_register : after (step (stateWith defaultConfig [(1, 5)] [(0, 0x006850A1)])) (fun t => t.reg 1) =
    some 0xC := by decide

/-- `SUB R1++, R1++, R1++`: source 1 reads x, source 0 x + 1, so that 1 is stored and incremented (R168). -/
theorem test_source_order : after (step (stateWith defaultConfig [(1, 5)] [(0, 0x002850A1)])) (fun t => t.reg 1) =
    some 2 := by decide

/-- An accepted request is no instruction: a maskable one is not accepted while M is clear, and the machine executes
(R203, R208). -/
theorem test_request_masked : cycle (some .maskable) State.reset = .next (State.reset.advance 1) := rfl

/-- `MOVE R15++, #0x40` jumps to 41 (section 2.5). -/
theorem test_jump : after (step (stateWith defaultConfig [(15, 0x20)] [(0x20, 0x000BD800), (0x21, 0x40)]))
    (fun t => t.reg 15) = some 0x41 := by decide

/-- `MOVE[M] R14, #0xFFFFFFFF` leaves D3FFFFFF (section 2.2). -/
theorem test_status_destination : after (step (modeState [0x02039800, 0xFFFFFFFF])) (fun t => t.reg 14) =
    some 0xD3FFFFFF := by decide

/-- The source's example (section 2.5): executed, R2 = 200, cell 300 = 207, R3 = 301, R15 = 102. -/
theorem test_source_example : after (step (stateWith defaultConfig
      [(1, 0x10), (2, 0x201), (3, 0x300), (15, 0x100)]
      [(0x12345688, 7), (0x100, 0xB278C971), (0x101, 0x12345678)]))
    (fun t => [t.reg 2, t.cell 0x300, t.reg 3, t.reg 15, t.reg 14]) =
      some [0x200, 0x207, 0x301, 0x102, 0x01000000] := by decide

/-- Three constants (section 2.5): `ADD @#0x80, #0x11, #0x22` leaves 33 in cell 80 and R15 = 4. -/
theorem test_three_constants : after (step (State.reset.withFetchWord 128
      (0x007C1830 + 0x80 * 2 ^ 32 + 0x11 * 2 ^ 64 + 0x22 * 2 ^ 96))) (fun t => (t.cell 0x80, t.reg 15)) =
    some (0x33, 4) := by decide

/-- The same, skipped (section 2.1): R15 = 4 and cell 80 is not written. -/
theorem test_skip : after (step (State.reset.withFetchWord 128
      (0x807C1830 + 0x80 * 2 ^ 32 + 0x11 * 2 ^ 64 + 0x22 * 2 ^ 96))) (fun t => (t.cell 0x80, t.reg 15)) =
    some (0, 4) := by decide

/-- A write to a display cell is shown (R59). -/
theorem test_display : (stateWith { defaultConfig with display := some (0x50, 1) } []
    [(0x50, 0x41), (0x51, 0x42)]).screen = [(0x50, 0x41)] := by decide

/-- The first step from reset with nothing placed runs the word 00000000, `MOVE R0, R0` (R84, entry 25). -/
theorem test_reset_step : step State.reset = .next (State.reset.advance 1) := rfl

/-! ### Witnesses: states and operands that meet the hypotheses of each statement that has any -/

/-- Parameters of a memory of four cells. -/
def fourCells : Config := { defaultConfig with memWords := 4 }

/-- A state of that memory whose R1 names the last cell, R2 the first address past it, R4 the first cell. -/
def small : State := stateWith fourCells [(1, 3), (2, 4), (4, 0)] [(3, 0xCAFE), (0, 0xBEEF)]

theorem witness_decode_alu : decode .reconstruction [0xB278C971, 0x12345678] =
    .ok (.add ⟨true, .z⟩ false true (.memPostInc 3) (.preDec 2) (.memConst 1 0x12345678), []) := by decide

/-- The limits of MODE_TABLE hold of the reconstruction and of another table. -/
theorem witness_DecodeInvertsEncode : ModeTable.wf .reconstruction ∧ swappedModes.wf := by decide

theorem witness_EncodeInvertsDecode : decode .reconstruction [0x007C1830, 0x80, 0x11, 0x22, 5] =
    .ok (.add always false false (.memConst 0 0x80) (.const 0 0x11) (.const 0 0x22), [5]) := by decide

theorem witness_AluWordFormat : (0xB278C971 : Word)[27] = false ∧ ∃ i rest, decode .reconstruction [0xB278C971, 0x12345678] = .ok (i, rest) :=
  ⟨by decide, _, _, witness_decode_alu⟩

theorem witness_ShiftWordFormat : (0x0BE00000 : Word)[27] = true ∧ (0x0BE00000 : Word)[26] = false ∧
    decode .reconstruction [0x0BE00000] = .ok (.shift1111 always true (.reg 0) (.reg 0) (.reg 0), []) := by decide

theorem witness_HaltWordFormat : (0x0FFFFFFF : Word)[27] = true ∧ (0x0FFFFFFF : Word)[26] = true ∧
    decode .reconstruction [0x0FFFFFFF, 5] = .ok (.halt always 0x3FFFFFF, [5]) := by decide

theorem witness_OperandFieldLayout : decode .reconstruction [0xB278C971, 0x12345678] =
      .ok (.add ⟨true, .z⟩ false true (.memPostInc 3) (.preDec 2) (.memConst 1 0x12345678), []) ∧
    (Instr.add ⟨true, .z⟩ false true (.memPostInc 3) (.preDec 2) (.memConst 1 0x12345678)).operands =
      some (.memPostInc 3, .preDec 2, .memConst 1 0x12345678) := by decide

theorem witness_LengthFromInstructionWord : ModeTable.wf .reconstruction ∧
    ModeTable.reconstruction.form 3#3 = .const ∧ swappedModes.form 3#3 = .const ∧ decode .reconstruction [0x00000000] =
      .ok (.move always false false (.reg 0) (.reg 0) (.reg 0), []) ∧
    decode .reconstruction [0x007C1830, 1, 2, 3] = .ok (.add always false false (.memConst 0 1) (.const 0 2) (.const 0 3), []) := by
  decide

/-- Four cells that hold one instruction of four words: the last one is the last cell there is. -/
def fullMemory : State := stateWith fourCells [] [(0, 0x007C1830), (1, 1), (2, 2), (3, 3)]

theorem witness_StepRunsDecodedInstruction : fullMemory.halted = false ∧ fullMemory.cfg.irq = .never ∧
    fullMemory.cfg.modeTable = .reconstruction ∧ fullMemory.acceptsInterrupt .maskable = false ∧
    decode .reconstruction (cellsAtPc fullMemory) = .ok (.add always false false (.memConst 0 1) (.const 0 2) (.const 0 3), []) ∧
    ∀ n, n < 4 → fullMemory.admitted (fullMemory.reg 15 + BitVec.ofNat 32 n) = true := by decide

/-- The same instruction with its last constant past the end of memory. -/
def cutMemory : State := stateWith { defaultConfig with memWords := 3 } [] [(0, 0x007C1830), (1, 1), (2, 2)]

def pcOutside : State := stateWith fourCells [(15, 4)] []

theorem witness_FetchOutsideMemoryIsStuck : cutMemory.halted = false ∧ cutMemory.cfg.irq = .never ∧
    cutMemory.cfg.modeTable = .reconstruction ∧
    decode .reconstruction (cellsAtPc cutMemory) = .ok (.add always false false (.memConst 0 1) (.const 0 2) (.const 0 0), []) ∧
    (∀ k, k < 3 → cutMemory.admitted (cutMemory.reg 15 + BitVec.ofNat 32 k) = true) ∧
    cutMemory.admitted (cutMemory.reg 15 + BitVec.ofNat 32 3) = false := by decide

theorem witness_FetchOutsideMemoryIsStuck_first : pcOutside.cfg.modeTable = .reconstruction ∧ pcOutside.halted = false ∧
    decode .reconstruction (cellsAtPc pcOutside) = .ok (.move always false false (.reg 0) (.reg 0) (.reg 0), [0, 0, 0]) ∧
    pcOutside.admitted (pcOutside.reg 15 + BitVec.ofNat 32 0) = false := by decide

theorem witness_HaltedIsFinal : State.reset.halt.halted = true := by decide

theorem witness_ConditionTestSelectsStatusBit : decode .reconstruction [0xB278C971, 0x12345678] =
      .ok (.add ⟨true, .z⟩ false true (.memPostInc 3) (.preDec 2) (.memConst 1 0x12345678), []) ∧
    (stateWith defaultConfig [(14, 0x09000000)] []).meets
      (Instr.add ⟨true, .z⟩ false true (.memPostInc 3) (.preDec 2) (.memConst 1 0x12345678)).cond = false := by decide

theorem witness_FalseConditionOnlyAdvancesR15 : State.reset.meets (Instr.halt ⟨true, .always⟩ 0).cond = false := by decide

theorem witness_CodesZeroAndEight : (Instr.halt always 0).cond.field = 0#4 ∧
    (Instr.shift0000 ⟨true, .always⟩ true (.const 1 2) (.mem 2) (.mem 3)).cond.field = 8#4 := by decide

theorem witness_StatusRegisterDestination : State.reset.meets always = true ∧
    operandsReady (.reg 14) (.memPreDec 1) (.memConst 2 7) State.reset = true := by decide

theorem witness_StoreThenLoad : small.mem.wf ∧ small.admitted 3 = true ∧ small.admitted 0 = true ∧
    small.admitted 4 = false ∧ small.admitted 0xFFFFFFFF = false := by decide

/-- The address clauses of the source modes, at the last cell, at the first, and through a pre-decrement that leaves the
last cell. -/
theorem witness_SourceOperandModes : small.admitted (small.reg 1) = true ∧ small.admitted (small.reg 4) = true ∧
    small.admitted (held 2 (small.reg 2 - 1)) = true ∧ small.admitted (0xFFFFFFFF + small.reg 2) = true := by decide

theorem witness_Modes110And111 : ModeTable.wf .reconstruction ∧ small.mem.wf ∧ (0b1100001 : BitVec 7).extractLsb' 4 3 = 6#3 ∧
    (0b1110010 : BitVec 7).extractLsb' 4 3 = 7#3 ∧ small.admitted (small.reg 1) = true ∧
    small.admitted (0xFFFFFFFF + small.reg 2) = true := by decide

theorem witness_DestinationOperandModes : small.mem.wf ∧ small.admitted (small.reg 1) = true ∧
    small.admitted (small.reg 4) = true ∧ small.admitted (held 2 (small.reg 2 - 1)) = true ∧
    small.admitted (0xFFFFFFFF + small.reg 2) = true := by decide

theorem witness_DestinationMode011IsRefused : State.reset.meets always = true ∧
    Instr.or always true true (.const 1 2) (.reg 0) (.reg 0) ∈
      aluInstrs always true true (.const 1 2) (.reg 0) (.reg 0) ++
        shiftInstrs always true (.const 1 2) (.reg 0) (.reg 0) := by decide

theorem witness_MoveResult : small.meets always = true ∧
    operandsReady (.memPostInc 1) (.memPreDec 2) (.memConst 4 1) small = true := by decide

theorem witness_SubResult : small.meets always = true ∧
    operandsReady (.memPostInc 1) (.memPreDec 2) (.memConst 4 1) small = true := by decide

theorem witness_MdblResult : small.meets always = true ∧
    operandsReady (.memPostInc 1) (.memPreDec 2) (.memConst 4 1) small = true := by decide

theorem witness_AddResult : small.meets always = true ∧
    operandsReady (.memPostInc 1) (.memPreDec 2) (.memConst 4 1) small = true := by decide

theorem witness_DblResult : small.meets always = true ∧
    operandsReady (.memPostInc 1) (.memPreDec 2) (.memConst 4 1) small = true := by decide

theorem witness_DecResult : small.meets always = true ∧
    operandsReady (.memPostInc 1) (.memPreDec 2) (.memConst 4 1) small = true := by decide

theorem witness_LogicResults : small.meets always = true ∧
    operandsReady (.memPostInc 1) (.memPreDec 2) (.memConst 4 1) small = true := by decide

theorem witness_OneResult : small.meets always = true ∧
    operandsReady (.memPostInc 1) (.memPreDec 2) (.memConst 4 1) small = true := by decide

theorem witness_LogicResults_row : (Instr.or always true true (.reg 1) (.reg 2) (.reg 3), 0xFF#32) ∈
    logicTable always true true (.reg 1) (.reg 2) (.reg 3) 0xF 0xF0 := by decide

theorem witness_AluOpcodeTable : State.reset.meets always = true ∧
    (15#4, Instr.or always false false (.reg 15) (.reg 14) (.reg 0), 7#32) ∈
      aluTable always (.reg 15) (.reg 14) (.reg 0) 3 4 := by decide

theorem witness_AluFrame : small.meets always = true ∧
    Instr.add always true true (.memPostInc 1) (.memPreDec 2) (.memConst 4 1) ∈
      aluInstrs always true true (.memPostInc 1) (.memPreDec 2) (.memConst 4 1) ∧
    (after (exec (.add always true true (.memPostInc 1) (.memPreDec 2) (.memConst 4 1)) small) fun t => t.halted) =
      some false ∧
    storeAddress (.memPostInc 1) (.memPreDec 2) (.memConst 4 1) small = some 3 := by decide

theorem witness_AluFrame_status : ¬ operandWrites (.memPostInc 1) (.memPreDec 2) (.memConst 4 1) 14 := by
  simp +decide [operandWrites, destWrites, sourceWrites]

theorem witness_AluCompletesWithFullMemory : State.reset.cfg.memWords = 2 ^ 32 ∧ (Operand.memConst 1 5).isPlace = true ∧
    Instr.one always true true (.memConst 1 5) (.reg 0) (.reg 0) ∈
      aluInstrs always true true (.memConst 1 5) (.reg 0) (.reg 0) := by decide

/-- States in which, besides `0<0` at 0000 and `C>C` at 0001, every shift is `C>C`, every shift is `0<0`, and every shift
fills with a free value. -/
def rotating : State := State.start (allShifts .carryRightCarry)

def doubling : State := State.start (allShifts .zeroLeftZero)

def freeFill : State := State.start (allShifts ⟨.left, .other 0, .carry⟩)

theorem witness_ShiftByTableEntry : rotating.meets always = true ∧ freeFill.meets always = true ∧
    operandsReady (.memPostInc 1) (.preDec 2) (.reg 0) rotating = true ∧
    operandsReady (.memPostInc 1) (.preDec 2) (.reg 0) freeFill = true ∧
    (15#4, Instr.shift1111 always true (.memPostInc 1) (.preDec 2) (.reg 0)) ∈
      shiftRows always true (.memPostInc 1) (.preDec 2) (.reg 0) ∧
    rotating.cfg.shiftTable[(15#4).toFin] = some .carryRightCarry ∧
    freeFill.cfg.shiftTable[(15#4).toFin] = some ⟨.left, .other 0, .carry⟩ := by decide

/-- The limit of SHIFT_TABLE (R145): the default, a table of one known entry and full tables with `0<0` and `C>C` are
within it. -/
theorem test_shiftTable_limit : defaultConfig.shiftTable.wf ∧ (shiftAt 5 .carryRightCarry).shiftTable.wf ∧
    (allShifts .zeroLeftZero).shiftTable.wf ∧ (allShifts ⟨.left, .other 0, .carry⟩).shiftTable.wf := by decide

/-- Refused: a full table without one of the two, and a table with one unknown entry that lacks both. -/
theorem test_shiftTable_limit_refuses :
    ¬ ShiftTable.wf ((allShifts .zeroLeftZero).shiftTable.set 1 (some .zeroLeftZero)) ∧
      ¬ ShiftTable.wf ((allShifts .carryRightCarry).shiftTable.set 0 (some .carryRightCarry)) ∧
      ¬ ShiftTable.wf ((Vector.replicate 16 (some ⟨.left, .other 0, .carry⟩)).set 3 none) := by decide

theorem witness_KnownShiftTableHasBothShifts : freeFill.cfg.wf ∧ (∀ op : Fin 16, freeFill.cfg.shiftTable[op] ≠ none) ∧
    freeFill.meets always = true ∧ operandsReady (.memPostInc 1) (.preDec 2) (.reg 0) freeFill = true := by decide

theorem witness_ZeroLeftZeroShift : doubling.meets always = true ∧
    operandsReady (.memPostInc 1) (.preDec 2) (.reg 0) doubling = true ∧
    (0#4, Instr.shift0000 always true (.memPostInc 1) (.preDec 2) (.reg 0)) ∈
      shiftRows always true (.memPostInc 1) (.preDec 2) (.reg 0) ∧
    doubling.cfg.shiftTable[(0#4).toFin] = some .zeroLeftZero := by decide

theorem witness_CarryRightCarryShift : rotating.meets always = true ∧
    operandsReady (.memPostInc 1) (.preDec 2) (.reg 0) rotating = true ∧
    (7#4, Instr.shift0111 always false (.memPostInc 1) (.preDec 2) (.reg 0)) ∈
      shiftRows always false (.memPostInc 1) (.preDec 2) (.reg 0) ∧
    rotating.cfg.shiftTable[(7#4).toFin] = some .carryRightCarry := by decide

theorem witness_UnknownShiftIsRefused : State.reset.meets always = true ∧ (Operand.reg 1).isPlace = true ∧
    (15#4, Instr.shift1111 always true (.reg 1) (.reg 2) (.reg 0)) ∈ shiftRows always true (.reg 1) (.reg 2) (.reg 0) ∧
    State.reset.cfg.shiftTable[(15#4).toFin] = none := by decide

theorem witness_ShiftFrame : rotating.meets always = true ∧
    (7#4, Instr.shift0111 always true (.mem 1) (.reg 2) (.reg 0)) ∈ shiftRows always true (.mem 1) (.reg 2) (.reg 0) ∧
    (after (exec (.shift0111 always true (.mem 1) (.reg 2) (.reg 0)) rotating) fun t => t.halted) = some false ∧
    doubling.cfg.shiftTable[(7#4).toFin] = some .zeroLeftZero ∧ ShiftDesc.zeroLeftZero.sink = .discard := by decide

theorem witness_ShiftFrame_status : ¬ operandWrites (.mem 1) (.reg 2) (.reg 0) 14 := by
  simp +decide [operandWrites, destWrites, sourceWrites]

theorem witness_HaltInstructionStops : State.reset.meets always = true := by decide

theorem witness_StepOnHaltWord : (stateWith fourCells [(15, 3)] [(3, 0x0FFFFFFF)]).cfg.irq = .never ∧
    (stateWith fourCells [(15, 3)] [(3, 0x0FFFFFFF)]).halted = false ∧
    (stateWith fourCells [(15, 3)] [(3, 0x0FFFFFFF)]).admitted 3 = true ∧
    (stateWith fourCells [(15, 3)] [(3, 0x0FFFFFFF)]).cell 3 = 0x0FFFFFFF ∧
    (0x0FFFFFFF : Word)[27] = true ∧ (0x0FFFFFFF : Word)[26] = true := by decide

theorem witness_OnlyHaltHalts : exec (.halt always 0) State.reset = .next (State.reset.advance 1).halt ∧
    State.reset.halted = false ∧ (State.reset.advance 1).halt.halted = true := ⟨rfl, rfl, rfl⟩

theorem witness_JumpsGoToResult : State.reset.meets always = true ∧
    operandsReady (.reg 15) (.postInc 15) (.reg 15) State.reset = true ∧
    operandsReady (.postInc 15) (.const 15 2) (.reg 0) State.reset = true := by decide

theorem witness_RepeatedRegisterOrder : (5 : RegNo) ≠ 0 ∧ (5 : RegNo) ≠ 14 ∧ (5 : RegNo) ≠ 15 ∧
    State.reset.meets always = true := by decide

theorem witness_RefusalsAreTheTwoNamed :
    step (State.reset.withFetchWord 32 0x08000000) = .refused (.shiftOpcodeUnknown 0) ∧
      step (State.reset.withFetchWord 64 0x000C8180) = .refused .destMode011 := ⟨rfl, rfl⟩

theorem witness_ParametersNeverChange : step State.reset = .next (State.reset.advance 1) := rfl

theorem witness_StepKeepsInvariant : State.reset.Inv ∧ step State.reset = .next (State.reset.advance 1) :=
  ⟨by decide, rfl⟩

/-- The invariant also holds of a state no run from reset has reached. -/
theorem witness_StepKeepsInvariant_small : small.Inv := by decide

theorem witness_InterruptEntry : ∃ t, State.reset.takeInterrupt = .next t :=
  ⟨_, State.takeInterrupt_eq_next.mpr ⟨fun a _ => decide_eq_true a.isLt, rfl⟩⟩

/-- A platform on which requests may arrive, with both kinds accepted, a maskable one blocked by M, and the bits I and M
as they may stand. -/
def interruptible : State := stateWith { defaultConfig with irq := .mayArrive } [(14, 0x40000000)] []

theorem witness_InterruptAcceptance : interruptible.acceptsInterrupt .maskable = true ∧
    State.reset.flag .i = interruptible.flag .i ∧ State.reset.polls = interruptible.polls ∧ (interruptible.reg 14)[31] = false ∧
    State.reset.acceptsInterrupt .maskable = false := by decide

theorem witness_InterruptStep : State.reset.cfg.irq = .never ∧ interruptible.halted = false ∧
    interruptible.acceptsInterrupt .nonMaskable = true ∧ interruptible.cfg.memWords = 2 ^ 32 := by decide

/-- Source 1, source 0 and the destination, each at the first address past the end, of an ALU instruction and of a shift
with a known entry. -/
theorem witness_UnadmittedOperandIsStuck : small.meets always = true ∧ (Operand.mem 2).isPlace = true ∧
    Instr.add always true true (.mem 2) (.mem 1) (.mem 4) ∈ aluInstrs always true true (.mem 2) (.mem 1) (.mem 4) ∧
    small.admitted 4 = false ∧ loadAddress (.mem 2) (operandState (.reg 3) (.reg 3) (.mem 2) small) = some 4 ∧
    operandReady (.mem 4) (operandState (.reg 3) (.mem 2) (.mem 4) small) = true ∧
    loadAddress (.mem 2) (sourceState (.mem 4) (operandState (.reg 3) (.mem 2) (.mem 4) small)) = some 4 ∧
    operandReady (.mem 4) (operandState (.mem 2) (.mem 1) (.mem 4) small) = true ∧
    operandReady (.mem 1) (sourceState (.mem 4) (operandState (.mem 2) (.mem 1) (.mem 4) small)) = true ∧
    storeAddress (.mem 2) (.mem 1) (.mem 4) small = some 4 := by decide

/-- The same of a shift with a known entry. -/
def smallRotating : State := stateWith { allShifts .carryRightCarry with memWords := 4 } [(2, 4)] []

theorem witness_UnadmittedOperandIsStuck_shift : smallRotating.meets always = true ∧
    (9#4, Instr.shift1001 always true (.mem 2) (.reg 1) (.reg 0)) ∈ shiftRows always true (.mem 2) (.reg 1) (.reg 0) ∧
    smallRotating.cfg.shiftTable[(9#4).toFin] ≠ none ∧ smallRotating.admitted 4 = false ∧
    operandReady (.reg 0) (operandState (.mem 2) (.reg 1) (.reg 0) smallRotating) = true ∧
    operandReady (.reg 1) (sourceState (.reg 0) (operandState (.mem 2) (.reg 1) (.reg 0) smallRotating)) = true ∧
    storeAddress (.mem 2) (.reg 1) (.reg 0) smallRotating = some 4 := by decide

theorem witness_StartHasInvariant : defaultConfig.wf ∧ fourCells.wf ∧
    Config.wf { defaultConfig with memWords := 1, display := some (0, 1) } := by decide

end Sys2Proof.Tests
end

section
/-! The status register's hardwired bit (10_state.md, R27), and what it makes of condition code 0000. -/

namespace Sys2Proof.Machine

/-- The status bit of select code 0 is bit 24 of R14, the hardwired one (R27, R101). -/
@[simp] theorem State.flag_always (s : State) : s.flag .always = true :=
  calc s.flag .always = (s.reg 14)[24] := BitVec.getLsbD_eq_getElem (i := 24) (by decide)
    _ = true := s.reg14_bit24

/-- A condition on the hardwired bit depends on its negation alone: code 0000 holds, code 1000 does not (R100, R101). -/
@[simp] theorem State.meets_always (s : State) (negate : Bool) : s.meets ⟨negate, .always⟩ = !negate := by
  simp [State.meets]

/-- Settles O17: bit 24 reads one in every state, the state after a write to R14 among them, and condition code 0000
tests that bit. -/
theorem statusBit24IsHardwired : Obligations.StatusBit24IsHardwired :=
  fun s v => ⟨s.reg14_bit24, (s.writeReg 14 v).reg14_bit24, s.meets_always false⟩

end Sys2Proof.Machine
end

section
/-! The layout of ALU and shift words and of their operand fields (30_encoding.md, R73, R74, R76). -/

namespace Sys2Proof

/-- The instruction an ALU opcode selects stands at that place of the table (R81). -/
theorem aluInstrs_getElem? (op : BitVec 4) (cond : Cond) (c m : Bool) (d s0 s1 : Operand) :
    (aluInstrs cond c m d s0 s1)[op.toNat]? = some (aluInstr op cond c m d s0 s1) := by
  obtain ⟨⟨n, hn⟩⟩ := op
  have hn : n < 16 := hn
  interval_cases n <;> rfl

/-- The instruction a shift opcode selects stands at that place of the table (R82). -/
theorem shiftInstrs_getElem? (op : BitVec 4) (cond : Cond) (m : Bool) (d s0 s1 : Operand) :
    (shiftInstrs cond m d s0 s1)[op.toNat]? = some (shiftInstr op cond m d s0 s1) := by
  obtain ⟨⟨n, hn⟩⟩ := op
  have hn : n < 16 := hn
  interval_cases n <;> rfl

theorem instrOfWord_of_alu {w : Word} (h27 : w[27] = false) (d s0 s1 : Operand) :
    instrOfWord w d s0 s1 = aluInstr (w.extractLsb' 21 4) (.ofField (w.extractLsb' 28 4)) w[26] w[25] d s0 s1 := by
  simp [instrOfWord, h27]

theorem instrOfWord_of_shift {w : Word} (h27 : w[27] = true) (d s0 s1 : Operand) :
    instrOfWord w d s0 s1 = shiftInstr (w.extractLsb' 21 4) (.ofField (w.extractLsb' 28 4)) w[25] d s0 s1 := by
  simp [instrOfWord, h27]

/-- A word outside the HALT group decodes to the instruction of its fields (R72, R76). -/
theorem instrOfWord_of_decode {t : ModeTable} {w : Word} {ks rest : List Word} {i : Instr}
    (h : decode t (w :: ks) = .ok (i, rest)) (hg : (w[27] && w[26]) = false) :
    ∃ d s0 s1, i = instrOfWord w d s0 s1 ∧ d.ofField t (w.extractLsb' 14 7) ∧ s0.ofField t (w.extractLsb' 7 7) ∧
      s1.ofField t (w.extractLsb' 0 7) := by
  obtain ⟨hhalt, -⟩ | ⟨-, d, s0, s1, hi, -, hfields⟩ := decode_eq_ok.mp h
  · exact absurd (hg.symm.trans hhalt) Bool.false_ne_true
  · exact ⟨d, s0, s1, hi, hfields⟩

/-- Settles O3: with bit 27 clear the word's fields are those of an ALU instruction. -/
theorem aluWordFormat : Obligations.AluWordFormat := by
  intro t w ks rest i h h27
  obtain ⟨d, s0, s1, rfl, hfields⟩ := instrOfWord_of_decode h (by simp [h27])
  rw [instrOfWord_of_alu h27]
  exact ⟨_, d, s0, s1, aluInstrs_getElem? .., Cond.field_ofField _, hfields⟩

/-- Settles O4: with bits 27:26 = 10 the word's fields are those of a shift. -/
theorem shiftWordFormat : Obligations.ShiftWordFormat := by
  intro t w ks rest i h h27 h26
  obtain ⟨d, s0, s1, rfl, hfields⟩ := instrOfWord_of_decode h (by simp [h26])
  rw [instrOfWord_of_shift h27]
  exact ⟨_, d, s0, s1, shiftInstrs_getElem? .., Cond.field_ofField _, hfields⟩

/-- The mode stands in the upper three bits of an operand field, the register number in the lower four (R76). -/
theorem mode_register_of_ofField {t : ModeTable} {o : Operand} {w : Word} {lo : Nat}
    (h : o.ofField t (w.extractLsb' lo 7)) :
    o.form = t.form (w.extractLsb' (lo + 4) 3) ∧ o.register.val = (w.extractLsb' lo 4).toNat := by
  obtain ⟨hform, hreg⟩ := h
  rw [extractLsb'_of_extractLsb' _ _ _ _ _ (by decide)] at hform hreg
  exact ⟨hform, congrArg Fin.val hreg⟩

/-- Settles O6: the operands of a decoded instruction are those of the word's three fields, and each field holds its
mode above its register number. -/
theorem operandFieldLayout : Obligations.OperandFieldLayout := by
  intro t w ks rest i d s0 s1 h hops
  obtain ⟨-, rfl, -⟩ | ⟨-, d', s0', s1', rfl, -, hd, h0, h1⟩ := decode_eq_ok.mp h
  · cases hops
  · rw [instrOfWord_operands] at hops
    cases hops
    exact ⟨mode_register_of_ofField hd, mode_register_of_ofField h0, mode_register_of_ofField h1⟩

end Sys2Proof
end

section
/-! The ALU opcode table (30_encoding.md, R81): opcodes, and results without carry-in on register operands. -/

namespace Sys2Proof

/-- Each row of the ALU table is the instruction its opcode selects (R81). -/
theorem eq_aluInstr_of_mem_aluTable {cond : Cond} {d s0 s1 : Operand} {a b : Word} :
    ∀ row ∈ aluTable cond d s0 s1 a b, row.2.1 = aluInstr row.1 cond false false d s0 s1 := by
  simp [aluTable, aluInstr]

namespace Machine

/-! ### Results without carry-in -/

theorem wordOut_zero_result (a : Word) : (wordOut a 0).result = a := by
  simpa using congrArg AluOut.result (wordOut_eq a 0 (by decide))

theorem addOut_zero_result (a b : Word) : (addOut a b 0).result = a + b := by
  simpa using congrArg AluOut.result (addOut_eq a b 0 (by decide))

theorem subOut_zero_result (p : Bool) (a b : Word) : (subOut p a b 0).result = a - b := by
  simpa using congrArg AluOut.result (subOut_eq a b 0 p)

theorem dblOut_zero_result (a : Word) : (dblOut a 0).result = 2 * a := by
  simpa using congrArg AluOut.result (dblOut_eq a 0 (by decide))

theorem decOut_zero_result (p : Bool) (a : Word) : (decOut p a 0).result = a - 1 := by
  simpa using congrArg AluOut.result (decOut_eq a 0 (by decide) p)

/-! ### Completion -/

/-- An ALU instruction whose condition holds and whose operands are ready runs its full course (R80, R110). -/
theorem execAlu_of_ready {f : Word → Word → Int → AluOut} {cond : Cond} {c m : Bool} {d s0 s1 : Operand} {s : State}
    (hc : s.meets cond = true) (hr : operandsReady d s0 s1 s = true) :
    execAlu f cond c m d s0 s1 s =
      .next ((destState d (f (value0 d s0 s1 s) (value1 d s0 s1 s) (carryIn c s)).result
        (sourcesRead d s0 s1 s)).aluFlags m (f (value0 d s0 s1 s) (value1 d s0 s1 s) (carryIn c s))) :=
  execAlu_eq_next.mpr (.inr ⟨hc, hr, rfl⟩)

/-- On registers, without carry-in and flag update, an ALU instruction writes its result and nothing else but R15. -/
theorem execAlu_registers {f : Word → Word → Int → AluOut} {cond : Cond} {rd r0 r1 : RegNo} {s : State} {v : Word}
    (hc : s.meets cond = true) (hv : (f ((s.advance 1).reg r0) ((s.advance 1).reg r1) 0).result = v) :
    execAlu f cond false false (.reg rd) (.reg r0) (.reg r1) s = .next ((s.advance 1).writeReg rd v) := by
  subst hv
  exact execAlu_of_ready hc rfl

/-- Executing a row of the ALU table puts the row's expression in the destination (R81). -/
theorem exec_aluTable {cond : Cond} (rd r0 r1 : RegNo) {s : State} (hc : s.meets cond = true) :
    ∀ row ∈ aluTable cond (.reg rd) (.reg r0) (.reg r1) ((s.advance 1).reg r0) ((s.advance 1).reg r1),
      exec row.2.1 s = .next ((s.advance 1).writeReg rd row.2.2) := by
  have word {f : Word → Word → Word} :
      execAlu (fun a b => wordOut (f a b)) cond false false (.reg rd) (.reg r0) (.reg r1) s =
        .next ((s.advance 1).writeReg rd (f ((s.advance 1).reg r0) ((s.advance 1).reg r1))) :=
    execAlu_registers hc (wordOut_zero_result _)
  simp only [aluTable, List.forall_mem_cons]
  exact ⟨word, execAlu_registers hc (subOut_zero_result ..), execAlu_registers hc (addOut_zero_result ..),
    execAlu_registers hc (addOut_zero_result ..), execAlu_registers hc (dblOut_zero_result _),
    execAlu_registers hc (decOut_zero_result ..), word, word, word, word, word, word, word, word, word, word,
    List.forall_mem_nil _⟩

/-- Settles O25: the opcode and bit 27 are fields of the row's word, and the row completes with its expression. -/
theorem aluOpcodeTable : Obligations.AluOpcodeTable := by
  intro table cond rd r0 r1 s hc t row hrow
  have hword : row.2.1.word table = aluWord table row.1 cond false false (.reg rd) (.reg r0) (.reg r1) := by
    rw [eq_aluInstr_of_mem_aluTable row hrow, aluInstr_word]
  simp only [hword]
  exact ⟨aluWord_opcode .., aluWord_group .., exec_aluTable rd r0 r1 hc row hrow⟩

end Machine

end Sys2Proof
end

section
/-! The condition test (40_condition.md, R100): the condition of a decoded word, and what a false condition does. -/

namespace Sys2Proof

/-- The bit a select code names has that code (R101). -/
theorem StatusBit.code_ofCode (code : BitVec 3) : (StatusBit.ofCode code).code = code := by
  revert code; decide

theorem aluInstr_cond (op : BitVec 4) (cond : Cond) (c m : Bool) (d s0 s1 : Operand) :
    (aluInstr op cond c m d s0 s1).cond = cond := by
  unfold aluInstr; split <;> rfl

theorem shiftInstr_cond (op : BitVec 4) (cond : Cond) (m : Bool) (d s0 s1 : Operand) :
    (shiftInstr op cond m d s0 s1).cond = cond := by
  unfold shiftInstr; split <;> rfl

theorem instrOfWord_cond (w : Word) (d s0 s1 : Operand) :
    (instrOfWord w d s0 s1).cond = Cond.ofField (w.extractLsb' 28 4) := by
  unfold instrOfWord
  split
  · exact shiftInstr_cond ..
  · exact aluInstr_cond ..

/-- Every instruction word, of all three groups, carries its condition in bits 31:28 (R100). -/
theorem cond_of_decode {t : ModeTable} {w : Word} {ks rest : List Word} {i : Instr}
    (h : decode t (w :: ks) = .ok (i, rest)) : i.cond = Cond.ofField (w.extractLsb' 28 4) := by
  obtain ⟨-, rfl, -⟩ | ⟨-, d, s0, s1, rfl, -⟩ := decode_eq_ok.mp h
  · rfl
  · exact instrOfWord_cond ..

namespace Machine

/-- The test of a condition field: its lower three bits select, its upper bit negates (R100). -/
theorem State.meets_ofField (s : State) (f : BitVec 4) :
    s.meets (Cond.ofField f) = ((s.reg 14).getLsbD (24 + (f.extractLsb' 0 3).toNat) ^^ f[3]) := by
  simp only [State.meets, State.flag, StatusBit.pos, Cond.ofField, StatusBit.code_ofCode]

/-- The same test on the bits of the instruction word (R100). -/
theorem State.meets_ofField_word (s : State) (w : Word) :
    s.meets (Cond.ofField (w.extractLsb' 28 4)) =
      ((s.reg 14).getLsbD (24 + (w.extractLsb' 28 3).toNat) ^^ w[31]) := by
  have hnegate : (w.extractLsb' 28 4)[3] = w[31] := by simp [BitVec.getLsbD_eq_getElem]
  rw [State.meets_ofField, extractLsb'_of_extractLsb' _ _ _ _ _ (by decide), hnegate]

theorem conditionally_of_meets_false {c : Cond} {n : Nat} {body : State → Result State} {s : State}
    (hc : s.meets c = false) : conditionally c n body s = .next (s.advance n) := by
  simp [conditionally, hc]

/-- An instruction whose condition is false only moves R15 past its cells (R104, D6). -/
theorem exec_of_meets_false {i : Instr} {s : State} (hc : s.meets i.cond = false) :
    exec i s = .next (s.advance i.length) := by
  obtain ⟨f, cond, c, m, d, s0, s1, rfl, -, hlen, hexec⟩ | ⟨op, cond, m, d, s0, s1, rfl, -, hlen, hexec⟩ |
    ⟨cond, rest, rfl, hexec⟩ := exec_shape i s
  · rw [hexec, hlen]
    exact conditionally_of_meets_false hc
  · rw [hexec, hlen]
    exact conditionally_of_meets_false hc
  · rw [hexec]
    exact conditionally_of_meets_false hc

/-- Settles O13: the condition of a decoded word is the status bit its bits 30:28 select, negated by bit 31; where it is
false, the next state is the one with R15 advanced. -/
theorem conditionTestSelectsStatusBit : Obligations.ConditionTestSelectsStatusBit := by
  intro table w ks rest i s hdec
  refine ⟨?_, fun hc => ⟨s.advance i.length, exec_of_meets_false hc, fun j hj => ?_, rfl, rfl, rfl⟩⟩
  · rw [cond_of_decode hdec, State.meets_ofField_word]
  · rw [State.reg_advance, if_neg hj]

end Machine

end Sys2Proof
end

section
/-! The HALT instruction (43_halt.md, R160). -/

namespace Sys2Proof.Machine

/-- A HALT that is executed stops the machine, with R15 past its one cell, whatever its bits 25:0 (R160, R75). -/
theorem exec_halt_of_meets {cond : Cond} {s : State} (rest : BitVec 26) (hc : s.meets cond = true) :
    exec (.halt cond rest) s = .next (s.advance 1).halt :=
  (execHalt_eq_next (rest := rest)).mpr (if_pos hc).symm

/-- Settles O43: the next state is the one with R15 advanced by one and `halted` set. -/
theorem haltInstructionStops : Obligations.HaltInstructionStops := by
  intro cond rest s hc
  refine ⟨(s.advance 1).halt, exec_halt_of_meets rest hc, rfl, fun j => ?_, rfl, rfl, rfl, rfl⟩
  rw [State.reg_halt, State.reg_advance]
  rfl

end Sys2Proof.Machine
end

section
/-! The memory modes whose codes the source gives, 110 and 111 (44_operands.md, R176, R177, R186), and what a register
write and a cell write leave in the terms the operand statements use. -/

namespace Sys2Proof

/-! ### Decoding the two codes -/

/-- Code 110 has its form in every MODE_TABLE within its limits (R167). -/
theorem ModeTable.form_six {t : ModeTable} (ht : t.wf) : t.form 6#3 = .memPostInc := by
  obtain ⟨-, -, h6, -⟩ := ht
  exact h6

/-- Code 111 has its form in every MODE_TABLE within its limits (R167). -/
theorem ModeTable.form_seven {t : ModeTable} (ht : t.wf) : t.form 7#3 = .memConst := by
  obtain ⟨-, -, -, h7⟩ := ht
  exact h7

/-- A field with mode 110 is the post-increment form of the register it names and takes no constant (R76, R77). -/
theorem operandOfField_of_mode110 {t : ModeTable} {f : BitVec 7} (ht : t.wf) (hf : f.extractLsb' 4 3 = 6#3)
    (ks : List Word) : operandOfField t f ks = .ok (.memPostInc (f.extractLsb' 0 4).toFin, ks) :=
  operandOfField_eq_ok.mpr ⟨⟨by rw [hf, ModeTable.form_six ht]; rfl, rfl⟩, rfl⟩

/-- A field with mode 111 takes the next constant, to be added to the register it names (R76, R77). -/
theorem operandOfField_of_mode111 {t : ModeTable} {f : BitVec 7} (ht : t.wf) (hf : f.extractLsb' 4 3 = 7#3)
    (k : Word) (ks : List Word) : operandOfField t f (k :: ks) = .ok (.memConst (f.extractLsb' 0 4).toFin k, ks) :=
  operandOfField_eq_ok.mpr ⟨⟨by rw [hf, ModeTable.form_seven ht]; rfl, rfl⟩, rfl⟩

namespace Machine

/-! ### Writes -/

/-- A written register reads what `held` says, every other as before (R22). -/
theorem State.reg_writeReg_eq_held (s : State) (r j : RegNo) (v : Word) :
    (s.writeReg r v).reg j = if j = r then held r v else s.reg j := by
  rw [State.reg_writeReg]
  by_cases hj : j = r
  · subst hj
    simp [held, alwaysOne]
  · by_cases h0 : j = 0
    · subst h0
      simp [hj]
    · simp [hj, h0]

theorem onlyRegister_writeReg (s : State) (r : RegNo) (v : Word) : OnlyRegister r (held r v) s (s.writeReg r v) :=
  ⟨fun j => s.reg_writeReg_eq_held r j v, rfl, rfl, rfl, rfl, rfl⟩

/-- A written cell reads the word written, every other as before (R54). -/
theorem State.cell_writeCell {s : State} (hm : s.mem.wf) (a b v : Word) :
    (s.writeCell a v).cell b = if b = a then v else s.cell b := by
  simp [State.cell, Memory.read_write hm, BitVec.toNat_inj]

theorem onlyCell_writeCell {s : State} (hm : s.mem.wf) (a v : Word) : OnlyCell a v s (s.writeCell a v) :=
  ⟨by simp [State.cell_writeCell hm], fun b hb => by simp [State.cell_writeCell hm, hb], rfl, rfl, rfl, rfl⟩

/-- `OnlyCell` speaks of no register, so a register write after the store keeps it. -/
theorem OnlyCell.writeReg {a v : Word} {s t : State} (h : OnlyCell a v s t) (r : RegNo) (w : Word) :
    OnlyCell a v s (t.writeReg r w) := h

/-! ### The operand forms of the two modes -/

/-- Mode 110 as a source: the cell the register names, then the increment (R176). -/
theorem readSource_memPostInc {s : State} {r : RegNo} (ha : s.admitted (s.reg r) = true) :
    readSource (.memPostInc r) s = .next (s.cell (s.reg r), s.writeReg r (s.reg r + 1)) :=
  readSource_of_ready (o := .memPostInc r) ha

/-- Mode 110 as a destination: the store to the cell the register names, then the increment (R186). -/
theorem writeDest_memPostInc {s : State} {r : RegNo} (ha : s.admitted (s.reg r) = true) (v : Word) :
    writeDest (.memPostInc r) v s = .next ((s.writeCell (s.reg r) v).writeReg r (s.reg r + 1)) :=
  writeDest_of_ready (d := .memPostInc r) rfl ha v

/-- Mode 111 as a source: the cell at constant plus register, without side effect (R177). -/
theorem readSource_memConst {s : State} {r : RegNo} {k : Word} (ha : s.admitted (k + s.reg r) = true) :
    readSource (.memConst r k) s = .next (s.cell (k + s.reg r), s) :=
  readSource_of_ready (o := .memConst r k) ha

/-- Settles O21: the two codes decode to the post-increment and the constant form, and these read and store as said. -/
theorem modes110And111 : Obligations.Modes110And111 := by
  intro table f k v ks s ht hm r
  constructor
  · intro hf
    refine ⟨.memPostInc r, operandOfField_of_mode110 ht hf ks, fun ha => ⟨?_, ?_⟩⟩
    · exact ⟨_, readSource_memPostInc ha, onlyRegister_writeReg s r _⟩
    · exact ⟨_, writeDest_memPostInc ha v, (onlyCell_writeCell hm _ v).writeReg r _,
        fun j => State.reg_writeReg_eq_held _ r j _⟩
  · intro hf
    exact ⟨.memConst r k, operandOfField_of_mode111 ht hf k ks, readSource_memConst⟩

end Machine

end Sys2Proof
end

section
/-! Interrupt entry, register by register (60_exceptions.md, R201, R202). -/

namespace Sys2Proof.Machine

/-- What R14 takes at interrupt entry has the I bit set, whatever the free value for M is (R202, R203). -/
theorem interruptStatus_bit31 (n : Nat) (w : Word) : (interruptStatus n w)[31] = true := by
  rw [interruptStatus]
  simp only [BitVec.getElem_or, Bool.or_eq_true]
  exact .inl (.inr (by decide))

/-- Of what is written to R14 the I bit is kept: the hardwired bit is another one (R25, R27). -/
theorem held_fourteen_bit31 (v : Word) : (held 14 v)[31] = v[31] := by
  simp [held]

/-- Interrupt entry, register by register: it writes R15, R14 and R13, and every other register is as before. -/
theorem State.reg_of_takeInterrupt {s t : State} (h : s.takeInterrupt = .next t) (j : RegNo) :
    t.reg j =
      if j = 15 then Config.interruptTarget s.polls ((s.reg 14).extractLsb' 0 24) s.mem
      else if j = 14 then held 14 (interruptStatus s.polls (s.reg 14))
      else if j = 13 then s.reg 15
      else s.reg j := by
  obtain ⟨-, rfl⟩ := State.takeInterrupt_eq_next.mp h
  simp only [State.reg_writeReg_eq_held]
  rfl

/-- Interrupt entry writes no memory (R201: nothing is pushed). -/
theorem State.mem_of_takeInterrupt {s t : State} (h : s.takeInterrupt = .next t) : t.mem = s.mem := by
  obtain ⟨-, rfl⟩ := State.takeInterrupt_eq_next.mp h
  rfl

/-- Settles O53: each clause is one register of the entry, and the I bit is not the hardwired one, so that entry sets it
and a write to R14 clears it. -/
theorem interruptEntry : Obligations.InterruptEntry := by
  intro s t h
  have hreg := State.reg_of_takeInterrupt h
  refine ⟨hreg 13, ?sets, ?clears, State.mem_of_takeInterrupt h, ?frame⟩
  case sets =>
    have h14 : t.reg 14 = held 14 (interruptStatus s.polls (s.reg 14)) := hreg 14
    rw [h14, held_fourteen_bit31, interruptStatus_bit31]
  case clears =>
    intro v hv
    have h14 : (t.writeReg 14 v).reg 14 = held 14 v := t.reg_writeReg_eq_held 14 14 v
    rw [h14, held_fourteen_bit31, hv]
  case frame =>
    intro j h13 h14 h15
    rw [hreg j, if_neg h15, if_neg h14, if_neg h13]

end Sys2Proof.Machine
end

section
/-! The three groups of instructions (30_encoding.md, R72, R81, R82): every instruction is the one its opcode selects in
one of the tables, or HALT. Statements about all sixteen rows of a table are proved once, for any opcode. -/

namespace Sys2Proof

/-- The rows of the ALU table are what the ALU opcodes select (R81). -/
theorem mem_aluInstrs_iff {cond : Cond} {c m : Bool} {d s0 s1 : Operand} {i : Instr} :
    i ∈ aluInstrs cond c m d s0 s1 ↔ ∃ op, i = aluInstr op cond c m d s0 s1 := by
  constructor
  · intro h
    obtain ⟨n, hn, rfl⟩ := List.getElem_of_mem h
    have h16 : n < 2 ^ 4 := hn
    refine ⟨BitVec.ofNat 4 n, Option.some.inj ?_⟩
    rw [← aluInstrs_getElem?, BitVec.toNat_ofNat, Nat.mod_eq_of_lt h16, List.getElem?_eq_getElem hn]
  · rintro ⟨op, rfl⟩
    exact List.mem_of_getElem? (aluInstrs_getElem? op ..)

/-- The rows of the shift table are the shift opcodes with what they select (R82). -/
theorem mem_shiftRows_iff {cond : Cond} {m : Bool} {d s0 s1 : Operand} {row : BitVec 4 × Instr} :
    row ∈ shiftRows cond m d s0 s1 ↔ row.2 = shiftInstr row.1 cond m d s0 s1 := by
  constructor
  · revert row
    simp [shiftRows, shiftInstr]
  · obtain ⟨op, i⟩ := row
    intro (h : i = shiftInstr op cond m d s0 s1)
    subst h
    obtain ⟨⟨n, hn⟩⟩ := op
    have hn : n < 16 := hn
    interval_cases n <;> simp [shiftRows, shiftInstr]

/-- The shift instructions are the second parts of the rows (R82). -/
theorem mem_shiftInstrs_iff {cond : Cond} {m : Bool} {d s0 s1 : Operand} {i : Instr} :
    i ∈ shiftInstrs cond m d s0 s1 ↔ ∃ op, i = shiftInstr op cond m d s0 s1 := by
  have hmap : shiftInstrs cond m d s0 s1 = (shiftRows cond m d s0 s1).map Prod.snd := rfl
  simp [hmap, mem_shiftRows_iff, eq_comm]

/-- Every instruction belongs to one of the three groups (R72). -/
theorem Instr.group_cases (i : Instr) :
    (∃ cond rest, i = .halt cond rest) ∨ (∃ cond c m d s0 s1 op, i = aluInstr op cond c m d s0 s1) ∨
      ∃ cond m d s0 s1 op, i = shiftInstr op cond m d s0 s1 := by
  cases i with
  | halt cond rest => exact .inl ⟨cond, rest, rfl⟩
  | shift0000 cond m d s0 s1 | shift0001 cond m d s0 s1 | shift0010 cond m d s0 s1 | shift0011 cond m d s0 s1
  | shift0100 cond m d s0 s1 | shift0101 cond m d s0 s1 | shift0110 cond m d s0 s1 | shift0111 cond m d s0 s1
  | shift1000 cond m d s0 s1 | shift1001 cond m d s0 s1 | shift1010 cond m d s0 s1 | shift1011 cond m d s0 s1
  | shift1100 cond m d s0 s1 | shift1101 cond m d s0 s1 | shift1110 cond m d s0 s1 | shift1111 cond m d s0 s1 =>
    exact .inr (.inr ⟨cond, m, d, s0, s1, mem_shiftInstrs_iff.mp (by simp [shiftInstrs])⟩)
  | _ cond c m d s0 s1 =>
    exact .inr (.inl ⟨cond, c, m, d, s0, s1, mem_aluInstrs_iff.mp (by simp [aluInstrs])⟩)

namespace Machine

/-- Every ALU opcode selects an instruction that has the ALU's common course (R81, R110). -/
theorem exec_aluInstr (op : BitVec 4) (cond : Cond) (c m : Bool) (d s0 s1 : Operand) (s : State) :
    ∃ f, exec (aluInstr op cond c m d s0 s1) s = execAlu f cond c m d s0 s1 s := by
  unfold aluInstr
  split <;> exact ⟨_, rfl⟩

/-- Every shift opcode selects the shift that acts by the SHIFT_TABLE entry of that opcode (R82, R145). -/
theorem exec_shiftInstr (op : BitVec 4) (cond : Cond) (m : Bool) (d s0 s1 : Operand) (s : State) :
    exec (shiftInstr op cond m d s0 s1) s = execShift op cond m d s0 s1 s := by
  obtain ⟨⟨n, hn⟩⟩ := op
  have hn : n < 16 := hn
  interval_cases n <;> rfl

theorem exec_of_mem_aluInstrs {cond : Cond} {c m : Bool} {d s0 s1 : Operand} {i : Instr}
    (hi : i ∈ aluInstrs cond c m d s0 s1) (s : State) : ∃ f, exec i s = execAlu f cond c m d s0 s1 s := by
  obtain ⟨op, rfl⟩ := mem_aluInstrs_iff.mp hi
  exact exec_aluInstr op cond c m d s0 s1 s

theorem exec_of_mem_shiftRows {cond : Cond} {m : Bool} {d s0 s1 : Operand} {row : BitVec 4 × Instr}
    (hrow : row ∈ shiftRows cond m d s0 s1) (s : State) : exec row.2 s = execShift row.1 cond m d s0 s1 s := by
  rw [mem_shiftRows_iff.mp hrow, exec_shiftInstr]

end Machine

end Sys2Proof
end

section
/-! Encoding and decoding (30_encoding.md, R70 to R78): each undoes the other, the length is told from the word, and no
word is illegal. -/

namespace Sys2Proof

/-! ### Decoding what was encoded -/

/-- The operands of an encoded word are decoded from it, with their constants in order (R73, R74, R76, R78). -/
theorem decode_of_fields {t : ModeTable} (ht : t.wf) {w : Word} {d s0 s1 : Operand} (hg : (w[27] && w[26]) = false)
    (hd : w.extractLsb' 14 7 = d.field t) (h0 : w.extractLsb' 7 7 = s0.field t) (h1 : w.extractLsb' 0 7 = s1.field t)
    (rest : List Word) :
    decode t (w :: (operandConstants d s0 s1 ++ rest)) = .ok (instrOfWord w d s0 s1, rest) :=
  decode_eq_ok.mpr (.inr ⟨hg, d, s0, s1, rfl, rfl, hd ▸ ofField_field ht d, h0 ▸ ofField_field ht s0,
    h1 ▸ ofField_field ht s1⟩)

theorem shiftWord_groupBits (t : ModeTable) (op : BitVec 4) (cond : Cond) (m : Bool) (d s0 s1 : Operand) :
    (shiftWord t op cond m d s0 s1)[26] = false ∧ (shiftWord t op cond m d s0 s1)[27] = true :=
  getElem_of_extractLsb'_two (by decide) (shiftWord_group t op cond m d s0 s1)

theorem haltWord_groupBits (cond : Cond) (rest : BitVec 26) :
    (haltWord cond rest)[26] = true ∧ (haltWord cond rest)[27] = true :=
  getElem_of_extractLsb'_two (by decide) (haltWord_group cond rest)

/-- An ALU word stands for the instruction it was made from (R73). -/
theorem instrOfWord_aluWord (t : ModeTable) (op : BitVec 4) (cond : Cond) (c m : Bool) (d s0 s1 : Operand) :
    instrOfWord (aluWord t op cond c m d s0 s1) d s0 s1 = aluInstr op cond c m d s0 s1 := by
  rw [instrOfWord_of_alu (aluWord_group ..), aluWord_opcode, aluWord_cond, Cond.ofField_field, aluWord_c, aluWord_m]

/-- A shift word stands for the instruction it was made from (R74). -/
theorem instrOfWord_shiftWord (t : ModeTable) (op : BitVec 4) (cond : Cond) (m : Bool) (d s0 s1 : Operand) :
    instrOfWord (shiftWord t op cond m d s0 s1) d s0 s1 = shiftInstr op cond m d s0 s1 := by
  obtain ⟨-, h27⟩ := shiftWord_groupBits t op cond m d s0 s1
  rw [instrOfWord_of_shift h27, shiftWord_opcode, shiftWord_cond, Cond.ofField_field, shiftWord_m]

/-- The constants of an instruction are those of its operands (R78). -/
theorem Instr.constants_of_operands {i : Instr} {d s0 s1 : Operand} (h : i.operands = some (d, s0, s1)) :
    i.constants = operandConstants d s0 s1 := by
  simp [Instr.constants, h]

/-- Settles O1: by the group of the instruction; in each the fields of the word are those it was made of. -/
theorem decodeInvertsEncode : Obligations.DecodeInvertsEncode := by
  intro t i rest ht
  rw [encode, List.cons_append]
  obtain ⟨cond, bits, rfl⟩ | ⟨cond, c, m, d, s0, s1, op, rfl⟩ | ⟨cond, m, d, s0, s1, op, rfl⟩ := i.group_cases
  · obtain ⟨h26, h27⟩ := haltWord_groupBits cond bits
    refine decode_eq_ok.mpr (.inl ⟨?_, ?_, rfl⟩)
    · simp [Instr.word, h26, h27]
    · rw [Instr.word, haltWord_cond, Cond.ofField_field, haltWord_rest]
  · rw [aluInstr_word, Instr.constants_of_operands (aluInstr_operands ..),
      decode_of_fields ht (by simp [aluWord_group]) (aluWord_d ..) (aluWord_s0 ..) (aluWord_s1 ..),
      instrOfWord_aluWord]
  · obtain ⟨h26, -⟩ := shiftWord_groupBits t op cond m d s0 s1
    rw [shiftInstr_word, Instr.constants_of_operands (shiftInstr_operands ..),
      decode_of_fields ht (by simp [h26]) (shiftWord_d ..) (shiftWord_s0 ..) (shiftWord_s1 ..),
      instrOfWord_shiftWord]

/-! ### Encoding what was decoded -/

/-- The four fields of the HALT format fix the whole word (R75). -/
theorem word_eq_of_halt_fields {v w : Word} (hrest : v.extractLsb' 0 26 = w.extractLsb' 0 26) (h26 : v[26] = w[26])
    (h27 : v[27] = w[27]) (hcond : v.extractLsb' 28 4 = w.extractLsb' 28 4) : v = w := by
  apply BitVec.eq_of_getLsbD_eq
  intro n hn
  rcases (by omega : n < 26 ∨ n = 26 ∨ n = 27 ∨ 28 ≤ n) with h | rfl | rfl | h
  · exact getLsbD_eq_of_extractLsb'_eq hrest (by omega) (by omega)
  · exact h26
  · exact h27
  · exact getLsbD_eq_of_extractLsb'_eq hcond (by omega) (by omega)

/-- A word with bits 27:26 = 11 is the HALT word of its condition and its other bits (R75). -/
theorem haltWord_of_fields {w : Word} (h26 : w[26] = true) (h27 : w[27] = true) :
    haltWord (Cond.ofField (w.extractLsb' 28 4)) (w.extractLsb' 0 26) = w := by
  obtain ⟨g26, g27⟩ := haltWord_groupBits (Cond.ofField (w.extractLsb' 28 4)) (w.extractLsb' 0 26)
  exact word_eq_of_halt_fields (haltWord_rest ..) (g26.trans h26.symm) (g27.trans h27.symm)
    (by rw [haltWord_cond, Cond.field_ofField])

/-- A word of the other two groups is the word of the instruction it stands for, with the operands its fields encode
(R73, R74, R76). -/
theorem instrOfWord_word {t : ModeTable} (ht : t.wf) {w : Word} {d s0 s1 : Operand} (hg : (w[27] && w[26]) = false)
    (hd : d.ofField t (w.extractLsb' 14 7)) (h0 : s0.ofField t (w.extractLsb' 7 7))
    (h1 : s1.ofField t (w.extractLsb' 0 7)) : (instrOfWord w d s0 s1).word t = w := by
  have fd := field_of_ofField ht hd
  have f0 := field_of_ofField ht h0
  have f1 := field_of_ofField ht h1
  cases h27 : w[27] with
  | false =>
    rw [instrOfWord_of_alu h27, aluInstr_word]
    exact word_eq_of_fields ((aluWord_s1 ..).trans f1) ((aluWord_s0 ..).trans f0) ((aluWord_d ..).trans fd)
      (aluWord_opcode ..) (aluWord_m ..) (aluWord_c ..) ((aluWord_group ..).trans h27.symm)
      ((aluWord_cond ..).trans (Cond.field_ofField _))
  | true =>
    have h26 : w[26] = false := by simpa [h27] using hg
    rw [instrOfWord_of_shift h27, shiftInstr_word]
    obtain ⟨g26, g27⟩ :=
      shiftWord_groupBits t (w.extractLsb' 21 4) (.ofField (w.extractLsb' 28 4)) w[25] d s0 s1
    exact word_eq_of_fields ((shiftWord_s1 ..).trans f1) ((shiftWord_s0 ..).trans f0) ((shiftWord_d ..).trans fd)
      (shiftWord_opcode ..) (shiftWord_m ..) (g26.trans h26.symm) (g27.trans h27.symm)
      ((shiftWord_cond ..).trans (Cond.field_ofField _))

/-- Settles O2: the fields decoding reads fix the word, and the words after it are the constants and the rest. -/
theorem encodeInvertsDecode : Obligations.EncodeInvertsDecode := by
  intro t ws rest i ht h
  cases ws with
  | nil => cases h
  | cons w ks =>
    obtain ⟨hks, -⟩ := constantCount_of_decode h
    suffices hw : i.word t = w by rw [encode, hw, List.cons_append, ← hks]
    obtain ⟨hg, rfl, -⟩ | ⟨hg, d, s0, s1, rfl, -, hd, h0, h1⟩ := decode_eq_ok.mp h
    · obtain ⟨h27, h26⟩ := Bool.and_eq_true_iff.mp hg
      exact haltWord_of_fields h26 h27
    · exact instrOfWord_word ht hg hd h0 h1

/-! ### HALT words, lengths, and words that decode -/

/-- Settles O5: such a word takes the first case of decoding, and executing a HALT does not look at its bits 25:0. -/
theorem haltWordFormat : Obligations.HaltWordFormat := by
  intro t w ks rest i h h27 h26
  obtain ⟨-, rfl, rfl⟩ | ⟨hg, -⟩ := decode_eq_ok.mp h
  · exact ⟨_, rfl, Cond.field_ofField _, rfl, fun other s => rfl⟩
  · simp [h26, h27] at hg

/-- An instruction takes one cell and one for each of its constants (R70). -/
theorem Instr.length_eq (i : Instr) : i.length = 1 + i.constants.length := by
  unfold Instr.length Instr.constants
  cases i.operands <;> rfl

/-- Where code 011 has the form `#c[Rxx]`, the codes that own a constant are those with bits 1:0 = 11 (R77, R87). -/
theorem ModeTable.constantsOf_eq {t : ModeTable} (ht : t.wf) (h3 : t.form 3#3 = .const) (code : BitVec 3) :
    t.constantsOf code = if code.extractLsb' 0 2 = 3#2 then 1 else 0 := by
  have h7 := ModeTable.form_seven ht
  have owns : ((t.form code).ownsConstant = true) ↔ (code = 3#3 ∨ code = 7#3) := by
    constructor
    · intro h
      have hform : t.form code = .const ∨ t.form code = .memConst := by
        revert h
        cases t.form code <;> decide
      refine hform.imp (fun e => ?_) (fun e => ?_)
      · rw [← ModeTable.code_form ht code, e, ← h3, ModeTable.code_form ht]
      · rw [← ModeTable.code_form ht code, e, ← h7, ModeTable.code_form ht]
    · rintro (rfl | rfl)
      · rw [h3]; rfl
      · rw [h7]; rfl
  have bits : ∀ c : BitVec 3, (c = 3#3 ∨ c = 7#3) ↔ c.extractLsb' 0 2 = 3#2 := by decide
  simp only [ModeTable.constantsOf, owns, bits]

/-- Settles O7: the constants are as many as the word's three mode codes own, and a code owns one if it ends in 11. -/
theorem lengthFromInstructionWord : Obligations.LengthFromInstructionWord := by
  intro t w ks rest i ht h3 h
  obtain ⟨hks, hcount⟩ := constantCount_of_decode h
  have low (lo : Nat) : (w.extractLsb' lo 3).extractLsb' 0 2 = w.extractLsb' lo 2 :=
    extractLsb'_of_extractLsb' _ _ _ _ _ (by decide)
  constructor
  · rw [Instr.length_eq, hcount, constantCount]
    split
    · rfl
    · simp only [ModeTable.constantsOf_eq ht h3, low, Nat.add_assoc]
  · rw [hks, Instr.length_eq, List.length_cons, List.length_append]
    omega

/-- A word owns at most three constants (R77). -/
theorem constantCount_le (t : ModeTable) (w : Word) : constantCount t w ≤ 3 := by
  have one (code : BitVec 3) : t.constantsOf code ≤ 1 := by
    unfold ModeTable.constantsOf
    split <;> decide
  unfold constantCount
  split
  · decide
  · exact Nat.add_le_add (Nat.add_le_add (one _) (one _)) (one _)

/-- Settles O8: three words are as many as any word owns. -/
theorem noWordIsIllegal : Obligations.NoWordIsIllegal := by
  intro t w k0 k1 k2
  obtain ⟨i, rest, h, -⟩ := decode_constantCount (t := t) (w := w) (ks := [k0, k1, k2]) (constantCount_le t w)
  exact ⟨i, rest, h⟩

/-- Settles O9: the decoder is run on the seven words. -/
theorem specWordsDecode : Obligations.SpecWordsDecode :=
  ⟨by decide, by decide, by decide, by decide, by decide, by decide, by decide⟩

end Sys2Proof
end

section
/-! What every step keeps (10_state.md): a property kept by register writes and by stores to admitted cells is kept by
each part of an instruction and by interrupt entry. This is used for the invariant, the parameters and `halted`. -/

namespace Sys2Proof.Machine

/-- Register writes and stores to admitted cells, of which operands and flag updates consist, keep the property. -/
structure KeptByWrites (P : State → Prop) : Prop where
  writeReg : ∀ {s : State} (r : RegNo) (v : Word), P s → P (s.writeReg r v)
  writeCell : ∀ {s : State} {a : Word} (v : Word), P s → s.admitted a = true → P (s.writeCell a v)

namespace KeptByWrites

variable {P : State → Prop} (k : KeptByWrites P) {s t : State}
include k

theorem preDecrement (o : Operand) (h : P s) : P (preDecrement o s) := by
  cases o with
  | preDec r | memPreDec r => exact k.writeReg r _ h
  | _ => exact h

theorem postIncrement (o : Operand) (h : P s) : P (postIncrement o s) := by
  cases o with
  | postInc r | memPostInc r => exact k.writeReg r _ h
  | _ => exact h

theorem sourceState (o : Operand) (h : P s) : P (sourceState o s) := k.postIncrement o (k.preDecrement o h)

theorem destState {d : Operand} (hready : operandReady d s = true) (v : Word) (h : P s) : P (destState d v s) := by
  have hpre := k.preDecrement d h
  unfold operandReady at hready
  unfold Machine.destState
  cases ha : operandAddress d (Machine.preDecrement d s) with
  | none => exact k.postIncrement d (k.writeReg _ _ hpre)
  | some a =>
    have hadm : (Machine.preDecrement d s).admitted a = true := by
      rw [State.admitted_congr (cfg_preDecrement s d)]
      simpa [ha] using hready
    exact k.postIncrement d (k.writeCell _ hpre hadm)

theorem setFlag (f : StatusBit) (b : Bool) (h : P s) : P (s.setFlag f b) := k.writeReg _ _ h

theorem setResultFlags (w : Word) (h : P s) : P (s.setResultFlags w) := k.setFlag _ _ (k.setFlag _ _ (k.setFlag _ _ h))

theorem aluFlags (m : Bool) (out : AluOut) (h : P s) : P (s.aluFlags m out) := by
  cases m with
  | false => exact h
  | true => exact k.setFlag _ _ (k.setFlag _ _ (k.setResultFlags _ h))

theorem shiftFlags (m : Bool) (sink : ShiftSink) (w : Word) (b : Bool) (h : P s) : P (s.shiftFlags m sink w b) := by
  have described {u : State} (hu : P u) : P (if m then (u.setResultFlags w).setFlag .v false else u) := by
    split
    · exact k.setFlag _ _ (k.setResultFlags _ hu)
    · exact hu
  cases sink with
  | carry => exact described (k.setFlag _ _ h)
  | discard => exact described h

/-- What an instruction with ready operands writes to its destination, in the state its sources leave. -/
theorem destState_sourcesRead {d s0 s1 : Operand} (hready : operandsReady d s0 s1 s = true) (v : Word) (h : P s) :
    P (Machine.destState d v (sourcesRead d s0 s1 s)) := by
  simp only [operandsReady, Bool.and_eq_true] at hready
  obtain ⟨-, hd⟩ := hready
  exact k.destState hd v (k.sourceState s0 (k.sourceState s1 (k.writeReg _ _ h)))

theorem execAlu {f : Word → Word → Int → AluOut} {cond : Cond} {c m : Bool} {d s0 s1 : Operand}
    (h : Machine.execAlu f cond c m d s0 s1 s = .next t) (hs : P s) : P t := by
  obtain ⟨-, rfl⟩ | ⟨-, hready, rfl⟩ := execAlu_eq_next.mp h
  · exact k.writeReg _ _ hs
  · exact k.aluFlags _ _ (k.destState_sourcesRead hready _ hs)

theorem execShift {op : BitVec 4} {cond : Cond} {m : Bool} {d s0 s1 : Operand}
    (h : Machine.execShift op cond m d s0 s1 s = .next t) (hs : P s) : P t := by
  obtain ⟨-, rfl⟩ | ⟨-, hready, desc, -, rfl⟩ := execShift_eq_next.mp h
  · exact k.writeReg _ _ hs
  · exact k.shiftFlags _ _ _ _ (k.destState_sourcesRead hready _ hs)

/-- An instruction keeps what writes and halting keep. -/
theorem exec {i : Instr} (khalt : ∀ {u : State}, P u → P u.halt) (h : Machine.exec i s = .next t) (hs : P s) : P t := by
  obtain ⟨f, cond, c, m, d, s0, s1, -, -, -, hexec⟩ | ⟨op, cond, m, d, s0, s1, -, -, -, hexec⟩ |
    ⟨cond, rest, -, hexec⟩ := exec_shape i s
  · exact k.execAlu (hexec.symm.trans h) hs
  · exact k.execShift (hexec.symm.trans h) hs
  · have hadv : P (s.advance 1) := k.writeReg _ _ hs
    rw [execHalt_eq_next.mp (hexec.symm.trans h)]
    split
    · exact khalt hadv
    · exact hadv

theorem takeInterrupt (h : s.takeInterrupt = .next t) (hs : P s) : P t := by
  obtain ⟨-, rfl⟩ := State.takeInterrupt_eq_next.mp h
  exact k.writeReg _ _ (k.writeReg _ _ (k.writeReg _ _ hs))

/-- A step keeps what writes, halting and looking for an interrupt request keep. -/
theorem step (khalt : ∀ {u : State}, P u → P u.halt) (kpolled : ∀ {u : State}, P u → P u.polled)
    (h : Machine.step s = .next t) (hs : P s) : P t := by
  obtain ⟨-, rfl⟩ | ⟨-, hint | ⟨i, -, hexec⟩⟩ := step_eq_next h
  · exact hs
  · exact k.takeInterrupt hint (kpolled hs)
  · exact k.exec khalt hexec (kpolled hs)

end KeptByWrites

/-! ### The invariant -/

/-- Stored bit 24 of R14 stays one under register writes (R22, R27). -/
theorem writtenRegs_bit24 {regs : Vector Word 15} (h : regs[13][24] = true) (r : RegNo) (v : Word) :
    (writtenRegs regs r v)[13][24] = true := by
  unfold writtenRegs
  split
  · exact h
  · simp only [Vector.getElem_set]
    by_cases h14 : r.val = 14
    · simp [h14, alwaysOne]
    · have hne : ¬ r.val - 1 = 13 := by omega
      simpa [hne] using h

theorem State.Inv.writeReg {s : State} (h : s.Inv) (r : RegNo) (v : Word) : (s.writeReg r v).Inv := by
  obtain ⟨hcfg, hmem, hlisted, h24, hscreen⟩ := h
  exact ⟨hcfg, hmem, hlisted, writtenRegs_bit24 h24 r v, hscreen⟩

theorem State.Inv.writeCell {s : State} (h : s.Inv) {a : Word} (ha : s.admitted a = true) (v : Word) :
    (s.writeCell a v).Inv := by
  obtain ⟨hcfg, hmem, hlisted, h24, hscreen⟩ := h
  refine ⟨hcfg, Memory.wf_write hmem _ _, fun p hp => ?_, h24, fun p hp => ?_⟩
  · obtain ⟨rfl, -⟩ | hp := Memory.mem_write hp
    · exact of_decide_eq_true ha
    · exact hlisted p hp
  · rw [State.screen_writeCell, State.screenAfter] at hp
    split at hp
    · next hshown =>
      obtain rfl | hp := List.mem_cons.mp hp
      · exact hshown
      · exact hscreen p hp
    · exact hscreen p hp

theorem keptByWrites_inv : KeptByWrites State.Inv := ⟨fun r v h => h.writeReg r v, fun v h ha => h.writeCell ha v⟩

theorem State.Inv.polled {s : State} (h : s.Inv) : s.polled.Inv := by
  simpa [State.Inv] using h

/-- Settles O50: the invariant is kept by writes, and neither halting nor looking for a request touches what it speaks
of. -/
theorem stepKeepsInvariant : Obligations.StepKeepsInvariant :=
  fun _ _ hs h => keptByWrites_inv.step id State.Inv.polled h hs

/-- Settles O49: no write changes the parameters. -/
theorem parametersNeverChange : Obligations.ParametersNeverChange := by
  intro s t h
  have k : KeptByWrites fun u => u.cfg = s.cfg := ⟨fun _ _ e => e, fun _ e _ => e⟩
  exact k.step id (fun {u} e => (State.cfg_polled u).trans e) h rfl

/-- Settles O45: the course of an ALU instruction or shift consists of writes, and these do not halt the machine. -/
theorem onlyHaltHalts : Obligations.OnlyHaltHalts := by
  intro i s t h hs ht
  have k : KeptByWrites fun u => u.halted = false := ⟨fun _ _ e => e, fun _ e _ => e⟩
  obtain ⟨f, cond, c, m, d, s0, s1, -, -, -, hexec⟩ | ⟨op, cond, m, d, s0, s1, -, -, -, hexec⟩ |
    ⟨cond, rest, rfl, hexec⟩ := exec_shape i s
  · exact absurd (k.execAlu (hexec.symm.trans h) hs) (by simp [ht])
  · exact absurd (k.execShift (hexec.symm.trans h) hs) (by simp [ht])
  · refine ⟨cond, rest, rfl, ?_⟩
    by_contra hc
    rw [execHalt_eq_next.mp (hexec.symm.trans h), if_neg hc, State.halted_advance, hs] at ht
    exact Bool.false_ne_true ht

/-! ### The start of a run -/

theorem State.Inv.start {c : Config} (h : c.wf) : (State.start c).Inv :=
  ⟨h, ⟨List.Pairwise.nil, by simp [State.start]⟩, by simp [State.start], by simp [State.start], by simp [State.start]⟩

/-- Settles O51: no cell is listed and none shown at the start, and the default parameters are within their limits. -/
theorem startHasInvariant : Obligations.StartHasInvariant := ⟨fun _ h => .start h, .start (by decide)⟩

/-- Settles O52: each register of the start state is read. -/
theorem startState : Obligations.StartState := by
  refine fun c => ⟨rfl, by simp [State.reg, State.start, alwaysOne], rfl, fun j h14 h15 => ?_, fun a => rfl, rfl⟩
  have hj : j ∈ ([0, 1, 2, 3, 4, 5, 6, 7, 8, 9, 10, 11, 12, 13] : List RegNo) := by
    revert j; decide
  fin_cases hj <;> rfl

end Sys2Proof.Machine
end

section
/-! Fetching (30_encoding.md, R80): what the cells at R15 decode to is fetched where its cells are admitted, and the
fetch is stuck at the first that is not. -/

namespace Sys2Proof

/-- What a word decodes to depends on the constants it takes alone, not on the words after them. -/
theorem decode_constants_append {t : ModeTable} {w : Word} {ks rest : List Word} {i : Instr}
    (h : decode t (w :: ks) = .ok (i, rest)) (rest' : List Word) :
    decode t (w :: (i.constants ++ rest')) = .ok (i, rest') := by
  obtain ⟨hg, rfl, -⟩ | ⟨hg, d, s0, s1, rfl, -, hfields⟩ := decode_eq_ok.mp h
  · exact decode_eq_ok.mpr (.inl ⟨hg, rfl, rfl⟩)
  · rw [Instr.constants_of_operands (instrOfWord_operands ..)]
    exact decode_eq_ok.mpr (.inr ⟨hg, d, s0, s1, rfl, rfl, hfields⟩)

namespace Machine

theorem load_of_admitted {a : Word} {s : State} (h : s.admitted a = true) : load a s = .next (s.cell a) := if_pos h

theorem load_of_not_admitted {a : Word} {s : State} (h : s.admitted a = false) :
    load a s = .fault (.notAdmitted a) := by
  simp [load, h]

/-- Cell `k + 1` from an address is cell `k` from the next one. -/
theorem succ_add_ofNat (a : Word) (k : Nat) : a + 1 + BitVec.ofNat 32 k = a + BitVec.ofNat 32 (k + 1) := by
  rw [Nat.add_comm k 1, BitVec.ofNat_add, BitVec.add_assoc]
  rfl

/-- Fetching cells is stuck at the first that is not admitted (R51). -/
theorem fetchCells_stuck {s : State} {n k : Nat} {a : Word} (hk : k < n)
    (hbefore : ∀ j, j < k → s.admitted (a + BitVec.ofNat 32 j) = true)
    (hat : s.admitted (a + BitVec.ofNat 32 k) = false) :
    fetchCells s n a = .fault (.notAdmitted (a + BitVec.ofNat 32 k)) := by
  induction n generalizing a k with
  | zero => omega
  | succ n ih =>
    rw [fetchCells]
    cases k with
    | zero =>
      rw [BitVec.add_zero] at hat ⊢
      rw [load_of_not_admitted hat]
      rfl
    | succ k =>
      have h0 := hbefore 0 (by omega)
      rw [BitVec.add_zero] at h0
      rw [load_of_admitted h0, andThen_next,
        ih (k := k) (by omega) (fun j hj => by rw [succ_add_ofNat]; exact hbefore (j + 1) (by omega))
          (by rw [succ_add_ofNat]; exact hat), succ_add_ofNat]
      rfl

/-- The instruction the cells at R15 decode to has the cells after its word as constants, as many as its word owns. -/
theorem constants_of_cellsAtPc {s : State} {i : Instr} {rest : List Word}
    (h : decode s.cfg.modeTable (cellsAtPc s) = .ok (i, rest)) :
    i.length = 1 + constantCount s.cfg.modeTable (s.cell (s.reg 15)) ∧
      i.constants = (List.range (constantCount s.cfg.modeTable (s.cell (s.reg 15)))).map
        fun k => s.cell (s.reg 15 + 1 + BitVec.ofNat 32 k) := by
  obtain ⟨hks, hcount⟩ := constantCount_of_decode h
  refine ⟨by rw [Instr.length_eq, hcount], ?_⟩
  have hcells : [s.cell (s.reg 15 + 1), s.cell (s.reg 15 + 2), s.cell (s.reg 15 + 3)] =
      (List.range 3).map fun k => s.cell (s.reg 15 + 1 + BitVec.ofNat 32 k) := by
    simp only [succ_add_ofNat]
    rfl
  have htake : i.constants = [s.cell (s.reg 15 + 1), s.cell (s.reg 15 + 2), s.cell (s.reg 15 + 3)].take
      i.constants.length := by
    rw [hks, List.take_left]
  rw [htake, hcells, ← List.map_take, List.take_range, hcount, Nat.min_eq_left (constantCount_le ..)]

variable {s : State} {i : Instr} {rest : List Word} (hdec : decode s.cfg.modeTable (cellsAtPc s) = .ok (i, rest))
include hdec

/-- The instruction at R15 is fetched where its cells are admitted (R80). -/
theorem fetch_of_admitted (h : ∀ n, n < i.length → s.admitted (s.reg 15 + BitVec.ofNat 32 n) = true) :
    fetch s = .next i := by
  obtain ⟨hlen, hconstants⟩ := constants_of_cellsAtPc hdec
  have h0 := h 0 (by omega)
  rw [BitVec.add_zero] at h0
  have hcells : fetchCells s (constantCount s.cfg.modeTable (s.cell (s.reg 15))) (s.reg 15 + 1) =
      .next i.constants := by
    rw [fetchCells_eq_next fun k hk => by rw [succ_add_ofNat]; exact h (k + 1) (by omega), hconstants]
  have hagain := decode_constants_append hdec []
  rw [List.append_nil] at hagain
  rw [fetch, load_of_admitted h0, andThen_next, hcells, andThen_next, hagain]

/-- The fetch is stuck at the first cell of the instruction that is not admitted (R51, D13). -/
theorem fetch_of_not_admitted {n : Nat} (hn : n < i.length)
    (hbefore : ∀ k, k < n → s.admitted (s.reg 15 + BitVec.ofNat 32 k) = true)
    (hat : s.admitted (s.reg 15 + BitVec.ofNat 32 n) = false) :
    fetch s = .fault (.notAdmitted (s.reg 15 + BitVec.ofNat 32 n)) := by
  obtain ⟨hlen, -⟩ := constants_of_cellsAtPc hdec
  rw [fetch]
  cases n with
  | zero =>
    rw [BitVec.add_zero] at hat ⊢
    rw [load_of_not_admitted hat]
    rfl
  | succ n =>
    have h0 := hbefore 0 (by omega)
    rw [BitVec.add_zero] at h0
    rw [load_of_admitted h0, andThen_next,
      fetchCells_stuck (k := n) (by omega)
        (fun j hj => by rw [succ_add_ofNat]; exact hbefore (j + 1) (by omega)) (by rw [succ_add_ofNat]; exact hat),
      succ_add_ofNat]
    rfl

omit hdec

/-- What is fetched is what the cells at R15 decode to (R80). -/
theorem decode_of_fetch (h : fetch s = .next i) : ∃ rest, decode s.cfg.modeTable (cellsAtPc s) = .ok (i, rest) := by
  obtain ⟨j, rest, hdec⟩ := noWordIsIllegal s.cfg.modeTable (s.cell (s.reg 15)) (s.cell (s.reg 15 + 1))
    (s.cell (s.reg 15 + 2)) (s.cell (s.reg 15 + 3))
  by_cases hall : ∀ n, n < j.length → s.admitted (s.reg 15 + BitVec.ofNat 32 n) = true
  · have hj := (fetch_of_admitted hdec hall).symm.trans h
    cases hj
    exact ⟨rest, hdec⟩
  · have hex : ∃ n, n < j.length ∧ s.admitted (s.reg 15 + BitVec.ofNat 32 n) = false := by simpa using hall
    obtain ⟨hn, hat⟩ := Nat.find_spec hex
    have hbefore (k : Nat) (hk : k < Nat.find hex) : s.admitted (s.reg 15 + BitVec.ofNat 32 k) = true := by
      simpa [hk.trans hn] using Nat.find_min hex hk
    exact absurd ((fetch_of_not_admitted hdec hn hbefore hat).symm.trans h) (by simp)

end Machine

end Sys2Proof
end

section
/-! The step (30_encoding.md R80, 60_exceptions.md R206, 43_halt.md R162): what it runs, where it is stuck, and a halted
machine. -/

namespace Sys2Proof.Machine

theorem cycle_none (s : State) : cycle none s = andThen (fetch s) fun i => exec i s := rfl

/-- A request that is not accepted makes no difference (R203). -/
theorem cycle_of_not_accepted {s : State} {kind : InterruptKind} (h : s.acceptsInterrupt kind = false) :
    cycle (some kind) s = cycle none s := by
  simp [cycle, Option.filter, h]

/-- With IRQ `never` a step of a running machine is a cycle without a request (R206). -/
theorem step_of_never {s : State} (hrun : s.halted = false) (hirq : s.cfg.irq = .never) : step s = cycle none s := by
  obtain ⟨hpolled, hrequest⟩ := State.polled_of_never s hirq
  simp [step, hrun, hpolled, hrequest]

theorem step_of_halted {s : State} (h : s.halted = true) : step s = .next s := if_pos h

/-- Settles O10: the cells are fetched, and a request that is not accepted is passed over. -/
theorem stepRunsDecodedInstruction : Obligations.StepRunsDecodedInstruction := by
  intro s i rest hdec hadm
  have hcycle : cycle none s = exec i s := by rw [cycle_none, fetch_of_admitted hdec hadm, andThen_next]
  exact ⟨hcycle, fun kind hkind => (cycle_of_not_accepted hkind).trans hcycle,
    fun hrun hirq => (step_of_never hrun hirq).trans hcycle⟩

/-- Settles O11: the fetch is stuck there, and nothing is executed. -/
theorem fetchOutsideMemoryIsStuck : Obligations.FetchOutsideMemoryIsStuck := by
  intro s i rest n hdec hn hbefore hat
  have hcycle : cycle none s = .fault (.notAdmitted (s.reg 15 + BitVec.ofNat 32 n)) := by
    rw [cycle_none, fetch_of_not_admitted hdec hn hbefore hat]
    rfl
  exact ⟨hcycle, fun hrun hirq => (step_of_never hrun hirq).trans hcycle⟩

/-- Settles O12: by induction on the number of steps, each of which answers the same state. -/
theorem haltedIsFinal : Obligations.HaltedIsFinal := by
  intro s k hs
  have hstep : core.step s = .next s := step_of_halted hs
  induction k with
  | zero => rfl
  | succ k ih => simp only [Host.Core.run, hstep, ih]

/-- Settles O14: the next state is the one with R15 advanced. -/
theorem falseConditionOnlyAdvancesR15 : Obligations.FalseConditionOnlyAdvancesR15 :=
  fun i s hc => ⟨_, exec_of_meets_false hc, fun j => s.reg_advance i.length j, rfl, rfl, rfl, rfl, rfl⟩

/-- Settles O15: both codes select the hardwired bit, code 1000 with negation. -/
theorem codesZeroAndEight : Obligations.CodesZeroAndEight := by
  intro i s
  constructor
  · intro h
    have hcond : i.cond = ⟨false, .always⟩ := by rw [← Cond.ofField_field i.cond, h]; rfl
    rw [hcond, State.meets_always]
    rfl
  · intro h
    have hcond : i.cond = ⟨true, .always⟩ := by rw [← Cond.ofField_field i.cond, h]; rfl
    refine exec_of_meets_false ?_
    rw [hcond, State.meets_always]
    rfl

/-- A HALT leaves R15 past its one cell, and the machine halted exactly if its condition holds (R160, R163). -/
theorem exec_halt_next {s : State} (hrun : s.halted = false) (cond : Cond) (bits : BitVec 26) :
    ∃ t, exec (.halt cond bits) s = .next t ∧ t.halted = s.meets cond ∧
      (∀ j, t.reg j = if j = 15 then s.reg 15 + 1 else s.reg j) ∧ t.mem = s.mem := by
  cases hc : s.meets cond with
  | true => exact ⟨_, exec_halt_of_meets bits hc, rfl, fun j => s.reg_advance 1 j, rfl⟩
  | false => exact ⟨_, exec_of_meets_false (i := .halt cond bits) hc, hrun, fun j => s.reg_advance 1 j, rfl⟩

/-- Settles O44: such a word decodes to a HALT of one cell with the condition of the word's upper four bits. -/
theorem stepOnHaltWord : Obligations.StepOnHaltWord := by
  intro s hrun hadm w h27 h26
  have hdec : decode s.cfg.modeTable (cellsAtPc s) =
      .ok (.halt (.ofField (w.extractLsb' 28 4)) (w.extractLsb' 0 26), _) :=
    decode_eq_ok.mpr (.inl ⟨Bool.and_eq_true_iff.mpr ⟨h27, h26⟩, rfl, rfl⟩)
  have hcells (n : Nat) (hn : n < 1) : s.admitted (s.reg 15 + BitVec.ofNat 32 n) = true := by
    obtain rfl : n = 0 := by omega
    rwa [BitVec.add_zero]
  obtain ⟨hcycle, -, hstep⟩ := stepRunsDecodedInstruction s _ _ hdec hcells
  obtain ⟨t, ht, hhalted, hreg, hmem⟩ := exec_halt_next hrun (.ofField (w.extractLsb' 28 4)) (w.extractLsb' 0 26)
  exact ⟨t, hcycle.trans ht, fun hirq => (hstep hrun hirq).trans ht, hhalted.trans (s.meets_ofField_word w), hreg, hmem⟩

end Sys2Proof.Machine
end

section
/-! Registers, cells and the operand forms (10_state.md section 1, 20_memory.md section 2, 44_operands.md). -/

namespace Sys2Proof.Machine

/-! ### Register and cell rules -/

theorem State.reg_writeReg_self (s : State) (r : RegNo) (v : Word) : (s.writeReg r v).reg r = held r v := by
  rw [State.reg_writeReg_eq_held, if_pos rfl]

/-- R0 discards what is written (R22). -/
@[simp] theorem State.writeReg_zero (s : State) (v : Word) : s.writeReg 0 v = s := rfl

/-- The later of two writes to a register counts (R22). -/
@[simp] theorem State.writeReg_writeReg (s : State) (r : RegNo) (v w : Word) :
    (s.writeReg r v).writeReg r w = s.writeReg r w := by
  simp only [State.writeReg, writtenRegs]
  split <;> simp [Vector.set_set]

/-- Settles O19: the store answers the state with the cell written, and a load from another cell does not see it. -/
theorem storeThenLoad : Obligations.StoreThenLoad := by
  intro s a v hm
  refine ⟨fun ha => ⟨s.writeCell a v, if_pos ha, ?_, fun b hb => ?_, rfl, rfl, rfl, rfl, rfl⟩, fun ha => ?_⟩
  · rw [load_of_admitted (s := s.writeCell a v) ha, State.cell_writeCell hm, if_pos rfl]
  · have hadm : (s.writeCell a v).admitted b = s.admitted b := rfl
    rw [load, load, hadm, State.cell_writeCell hm, if_neg hb]
  · exact ⟨by simp [store, ha], load_of_not_admitted ha⟩

/-! ### Source operands -/

/-- Pre-decrement as a source: the decremented register, as it reads back (R171). -/
theorem readSource_preDec (s : State) (r : RegNo) :
    readSource (.preDec r) s = .next (held r (s.reg r - 1), s.writeReg r (s.reg r - 1)) := by
  rw [← State.reg_writeReg_self]
  exact readSource_of_ready (o := .preDec r) rfl

/-- Post-increment as a source: the register before the increment (R172). -/
theorem readSource_postInc (s : State) (r : RegNo) :
    readSource (.postInc r) s = .next (s.reg r, s.writeReg r (s.reg r + 1)) := readSource_of_ready (o := .postInc r) rfl

/-- Pre-decrement through memory: the cell the decremented register names (R175). -/
theorem readSource_memPreDec {s : State} {r : RegNo} (ha : s.admitted (held r (s.reg r - 1)) = true) :
    readSource (.memPreDec r) s = .next (s.cell (held r (s.reg r - 1)), s.writeReg r (s.reg r - 1)) := by
  rw [← State.reg_writeReg_self] at ha ⊢
  exact readSource_of_ready (o := .memPreDec r) ha

/-- Settles O20: each form by its rule, and what it changes by the rule of the register write. -/
theorem sourceOperandModes : Obligations.SourceOperandModes := by
  intro s r k
  refine ⟨readSource_of_ready (o := .reg r) rfl, ?preDec, ?postInc, readSource_of_ready (o := .const r k) rfl,
    readSource_of_ready (o := .mem r), ?memPreDec, ?memPostInc, readSource_memConst, ?plain, rfl, rfl⟩
  case preDec => exact ⟨_, readSource_preDec s r, onlyRegister_writeReg s r _⟩
  case postInc => exact ⟨_, readSource_postInc s r, onlyRegister_writeReg s r _⟩
  case memPreDec => exact fun ha => ⟨_, readSource_memPreDec ha, onlyRegister_writeReg s r _⟩
  case memPostInc => exact fun ha => ⟨_, readSource_memPostInc ha, onlyRegister_writeReg s r _⟩
  case plain => simp [Operand.constants]

/-! ### Destination operands -/

theorem writeDest_reg (s : State) (r : RegNo) (v : Word) : writeDest (.reg r) v s = .next (s.writeReg r v) := rfl

/-- Pre-decrement as a destination: the decrement is overwritten (R181). -/
theorem writeDest_preDec (s : State) (r : RegNo) (v : Word) : writeDest (.preDec r) v s = .next (s.writeReg r v) := by
  rw [writeDest_of_ready (d := .preDec r) rfl rfl]
  exact congrArg _ (s.writeReg_writeReg r _ v)

/-- Post-increment as a destination: the increment starts from the result as it reads back (R182). -/
theorem writeDest_postInc (s : State) (r : RegNo) (v : Word) :
    writeDest (.postInc r) v s = .next (s.writeReg r (held r v + 1)) := by
  rw [← State.reg_writeReg_self, ← State.writeReg_writeReg s r v]
  exact writeDest_of_ready (d := .postInc r) rfl rfl v

/-- Pre-decrement through memory: the store to the cell the decremented register names (R185). -/
theorem writeDest_memPreDec {s : State} {r : RegNo} (ha : s.admitted (held r (s.reg r - 1)) = true) (v : Word) :
    writeDest (.memPreDec r) v s =
      .next ((s.writeReg r (s.reg r - 1)).writeCell (held r (s.reg r - 1)) v) := by
  rw [← State.reg_writeReg_self] at ha ⊢
  exact writeDest_of_ready (d := .memPreDec r) rfl ha v

/-- Settles O22: each form by its rule, and what it changes by the rules of the register and cell writes. -/
theorem destinationOperandModes : Obligations.DestinationOperandModes := by
  intro s r k v hm
  refine ⟨?reg, ?postInc, ?mem, ?memPreDec, ?memPostInc, ?memConst⟩
  case reg => exact ⟨_, writeDest_reg s r v, onlyRegister_writeReg s r v⟩
  case postInc => exact ⟨_, writeDest_postInc s r v, onlyRegister_writeReg s r _⟩
  case mem => exact fun ha => ⟨_, writeDest_of_ready (d := .mem r) rfl ha v, onlyCell_writeCell hm _ v, fun j => rfl⟩
  case memPreDec =>
    exact fun ha => ⟨_, writeDest_memPreDec ha v, onlyCell_writeCell (s := s.writeReg r _) hm _ v,
      fun j => s.reg_writeReg_eq_held r j _⟩
  case memPostInc =>
    exact fun ha => ⟨_, writeDest_memPostInc ha v, (onlyCell_writeCell hm _ v).writeReg r _,
      fun j => State.reg_writeReg_eq_held _ r j _⟩
  case memConst =>
    exact fun ha => ⟨_, writeDest_of_ready (d := .memConst r k) rfl ha v, onlyCell_writeCell hm _ v, fun j => rfl⟩

/-- Settles O23: both are the register write of the result. -/
theorem preDecrementDestinationIsRegister : Obligations.PreDecrementDestinationIsRegister :=
  fun s r v => (writeDest_preDec s r v).trans (writeDest_reg s r v).symm

/-- Settles O16: R0 reads zero, and each write to it leaves the state as it was. -/
theorem registerZeroReadsZeroAndDiscards : Obligations.RegisterZeroReadsZeroAndDiscards := by
  intro s k v
  have hconst : readSource (.const 0 k) s = .next (k + s.reg 0, s) := readSource_of_ready (o := .const 0 k) rfl
  rw [State.reg_zero, add_zero] at hconst
  refine ⟨?_, hconst⟩
  simp only [List.forall_mem_cons, List.not_mem_nil, false_imp_iff, implies_true, and_true]
  exact ⟨⟨rfl, writeDest_reg s 0 v⟩, ⟨readSource_preDec s 0, writeDest_preDec s 0 v⟩,
    readSource_postInc s 0, writeDest_postInc s 0 v⟩

/-- An instruction whose condition holds and whose destination is no place is refused first of all (R86, D2). -/
theorem conditionally_onPlace_refused {cond : Cond} {n : Nat} {d : Operand} {body : State → Result State} {s : State}
    (hc : s.meets cond = true) (hd : d.isPlace = false) :
    conditionally cond n (fun t => onPlace d (body t)) s = .refused .destMode011 := by
  simp [conditionally, onPlace, hc, hd]

/-- Settles O24: both courses look at the destination first. -/
theorem destinationMode011IsRefused : Obligations.DestinationMode011IsRefused := by
  intro cond c m r k s0 s1 s hc i hi
  obtain hi | hi := List.mem_append.mp hi
  · obtain ⟨f, hexec⟩ := exec_of_mem_aluInstrs hi s
    rw [hexec]
    exact conditionally_onPlace_refused hc rfl
  · obtain ⟨op, rfl⟩ := mem_shiftInstrs_iff.mp hi
    rw [exec_shiftInstr]
    exact conditionally_onPlace_refused hc rfl

end Sys2Proof.Machine
end

section
/-! The flag write of an ALU instruction as one write to R14 (41_alu.md section 1, R112 to R114). -/

namespace Sys2Proof.Machine

/-- The five flags in their places, bits 29:25 of R14 (R25). -/
def flagBits (v n z c x : Bool) : Word :=
  (BitVec.ofBool v ++ BitVec.ofBool n ++ BitVec.ofBool z ++ BitVec.ofBool c ++ BitVec.ofBool x).setWidth 32 <<< 25

theorem getLsbD_flagBits (v n z c x : Bool) (j : Nat) :
    (flagBits v n z c x).getLsbD j =
      if j = 29 then v else if j = 28 then n else if j = 27 then z else if j = 26 then c else if j = 25 then x
      else false := by
  rcases (by omega : (j < 25 ∨ 30 ≤ j) ∨ j = 25 ∨ j = 26 ∨ j = 27 ∨ j = 28 ∨ j = 29) with
    h | rfl | rfl | rfl | rfl | rfl
  case inl =>
    have hne : j ≠ 29 ∧ j ≠ 28 ∧ j ≠ 27 ∧ j ≠ 26 ∧ j ≠ 25 := by omega
    rw [flagBits, BitVec.getLsbD_shiftLeft, BitVec.getLsbD_setWidth]
    obtain h | h := h
    · simp [h, hne]
    · rw [BitVec.getLsbD_of_ge _ (j - 25) (by omega)]
      simp [hne]
  all_goals
    simp only [flagBits, BitVec.getLsbD_shiftLeft, BitVec.getLsbD_setWidth, BitVec.getLsbD_append]
    simp

/-- The mask that clears bits 29:25. -/
theorem getLsbD_flagMask (j : Nat) : (0xC1FFFFFF : Word).getLsbD j = decide (j < 32 ∧ (j < 25 ∨ 29 < j)) := by
  by_cases hj : j < 32
  · revert j; decide
  · rw [BitVec.getLsbD_of_ge _ _ (by omega)]
    simp [hj]

/-- A word with its bits 29:25 replaced by five flags. -/
theorem getLsbD_withFlags (w : Word) (v n z c x : Bool) (j : Nat) :
    ((w &&& 0xC1FFFFFF) ||| flagBits v n z c x).getLsbD j =
      if j = 29 then v else if j = 28 then n else if j = 27 then z else if j = 26 then c else if j = 25 then x
      else w.getLsbD j := by
  rw [BitVec.getLsbD_or, BitVec.getLsbD_and, getLsbD_flagMask, getLsbD_flagBits]
  rcases (by omega : (j < 25 ∨ 29 < j) ∨ j = 25 ∨ j = 26 ∨ j = 27 ∨ j = 28 ∨ j = 29) with
    h | rfl | rfl | rfl | rfl | rfl
  case inl =>
    have hne : j ≠ 29 ∧ j ≠ 28 ∧ j ≠ 27 ∧ j ≠ 26 ∧ j ≠ 25 := by omega
    by_cases hj : j < 32
    · simp [hne, hj, h]
    · rw [BitVec.getLsbD_of_ge w j (by omega)]
      simp [hne]
  all_goals simp

/-- R14 after the flag write: bits 29:25 are V', N', Z', C' and X' (R112, R114). -/
theorem State.reg14_aluFlags (s : State) (out : AluOut) :
    (s.aluFlags true out).reg 14 =
      (s.reg 14 &&& 0xC1FFFFFF) |||
        flagBits out.overflow out.result.msb (out.result == 0) out.carry (out.result == 0xFFFFFFFF) := by
  apply BitVec.eq_of_getLsbD_eq
  intro j _
  rw [State.bit_aluFlags, getLsbD_withFlags]
  grind

/-- What a register holds is what it would hold after being written again. -/
theorem held_reg (s : State) (r : RegNo) : held r (s.reg r) = s.reg r := by
  unfold held
  split
  · next h => rw [h, State.reg_zero]
  · split
    · next h =>
      subst h
      simp [State.reg, alwaysOne, BitVec.or_assoc]
    · rfl

/-- Two writes that a register holds alike are the same write (R22). -/
theorem State.writeReg_congr (s : State) {r : RegNo} {v w : Word} (h : held r v = held r w) :
    s.writeReg r v = s.writeReg r w := by
  have hw : writtenRegs s.regs r v = writtenRegs s.regs r w := by
    by_cases h0 : r = 0
    · subst h0; rfl
    · have h0' : ¬ r.val = 0 := fun e => h0 (Fin.ext e)
      have h14 : (r = 14) = (r.val = 14) := by rw [Fin.ext_iff]; rfl
      simp only [held, if_neg h0, h14] at h
      simp only [writtenRegs, dif_neg h0', alwaysOne, h]
  simp only [State.writeReg, hw]

/-- The flag write of an ALU instruction is one write to R14 (R114). -/
theorem State.aluFlags_true (s : State) (out : AluOut) :
    s.aluFlags true out = s.writeReg 14 ((s.reg 14 &&& 0xC1FFFFFF) |||
      flagBits out.overflow out.result.msb (out.result == 0) out.carry (out.result == 0xFFFFFFFF)) := by
  obtain ⟨w, hw⟩ : ∃ w, s.aluFlags true out = s.writeReg 14 w := by
    simp only [State.aluFlags, State.setResultFlags, State.setFlag, State.writeReg_writeReg, if_true]
    exact ⟨_, rfl⟩
  rw [← State.reg14_aluFlags, hw]
  apply State.writeReg_congr
  rw [held_reg, State.reg_writeReg_self]

/-- Settles O34: with M set it is that write to R14, with M clear it is nothing. -/
theorem aluFlagWrite : Obligations.AluFlagWrite := by
  intro s out
  have h : OnlyRegister 14 (held 14 ((s.aluFlags true out).reg 14)) s (s.aluFlags true out) := by
    rw [State.reg14_aluFlags, State.aluFlags_true]
    exact onlyRegister_writeReg s 14 _
  rw [held_reg, State.reg14_aluFlags] at h
  exact ⟨h, rfl⟩

end Sys2Proof.Machine
end

section
/-! The sixteen ALU instructions with carry-in and flags (41_alu.md section 2): each answers what its exact-integer
formula does, which Laws/Alu states in words. -/

namespace Sys2Proof.Machine

theorem cin_le_one (c : Bool) (s : State) : cin c s ≤ 1 := by
  unfold cin
  split <;> decide

theorem carryIn_eq_cin (c : Bool) (s : State) : carryIn c s = cin c s := by
  unfold carryIn cin
  split <;> rfl

/-- An ALU instruction with operation `f` whose operands are ready answers what `f` gives for the source values and the
carry-in (R110). -/
theorem aluAnswers_of_execAlu {f : Word → Word → Int → AluOut} {i : Instr} {cond : Cond} {c m : Bool}
    {d s0 s1 : Operand} {s : State} {out : AluOut} (hexec : exec i s = execAlu f cond c m d s0 s1 s)
    (hc : s.meets cond = true) (hr : operandsReady d s0 s1 s = true)
    (hout : f (value0 d s0 s1 s) (value1 d s0 s1 s) (cin c s) = out) : AluAnswers i m d s0 s1 s out := by
  rw [AluAnswers, hexec, execAlu_of_ready hc hr, carryIn_eq_cin, hout]

/-- Settles O26: MOVE adds the carry-in to the word it moves. -/
theorem moveResult : Obligations.MoveResult :=
  fun _ c _ _ _ _ s hc hr => aluAnswers_of_execAlu rfl hc hr (wordOut_eq _ _ (cin_le_one c s))

/-- Settles O27: the difference in both polarities of C. -/
theorem subResult : Obligations.SubResult :=
  fun _ c _ _ _ _ s hc hr => aluAnswers_of_execAlu rfl hc hr (subOut_eq _ _ (cin c s) _)

/-- Settles O28: the addition of s0 and (s0 && s1). -/
theorem mdblResult : Obligations.MdblResult :=
  fun _ c _ _ _ _ s hc hr => aluAnswers_of_execAlu rfl hc hr (addOut_eq _ _ _ (cin_le_one c s))

/-- Settles O29: the addition of the two sources. -/
theorem addResult : Obligations.AddResult :=
  fun _ c _ _ _ _ s hc hr => aluAnswers_of_execAlu rfl hc hr (addOut_eq _ _ _ (cin_le_one c s))

/-- Settles O30: the doubling of s0. -/
theorem dblResult : Obligations.DblResult :=
  fun _ c _ _ _ _ s hc hr => aluAnswers_of_execAlu rfl hc hr (dblOut_eq _ _ (cin_le_one c s))

/-- Settles O31: the difference of s0 and one, in both polarities of C. -/
theorem decResult : Obligations.DecResult :=
  fun _ c _ _ _ _ s hc hr => aluAnswers_of_execAlu rfl hc hr (decOut_eq _ _ (cin_le_one c s) _)

/-- Settles O32: the nine rows have one course, with the row's word as the operation's. -/
theorem logicResults : Obligations.LogicResults := by
  intro cond c m d s0 s1 s hc hr
  have row {i : Instr} {f : Word → Word → Word}
      (hexec : exec i s = execAlu (fun a b => wordOut (f a b)) cond c m d s0 s1 s) :
      AluAnswers i m d s0 s1 s
        ⟨f (value0 d s0 s1 s) (value1 d s0 s1 s) + BitVec.ofNat 32 (cin c s),
          cin c s == 1 && f (value0 d s0 s1 s) (value1 d s0 s1 s) == 0xFFFFFFFF,
          cin c s == 1 && f (value0 d s0 s1 s) (value1 d s0 s1 s) == 0x7FFFFFFF⟩ :=
    aluAnswers_of_execAlu hexec hc hr (wordOut_eq _ _ (cin_le_one c s))
  simp only [logicTable, List.forall_mem_cons]
  exact ⟨row (f := fun a _ => ~~~a) rfl, row (f := fun a b => ~~~(a ||| b)) rfl, row (f := fun a b => ~~~a &&& b) rfl,
    row (f := fun a b => ~~~(a &&& b)) rfl, row (f := fun a b => a ^^^ b) rfl, row (f := fun a b => ~~~a ||| b) rfl,
    row (f := fun a b => ~~~(a ^^^ b)) rfl, row (f := fun a b => a &&& b) rfl, row (f := fun a b => a ||| b) rfl,
    List.forall_mem_nil _⟩

/-- One, with carry-in two, fits both readings: no flag describes it (R129). -/
theorem wordOut_one (c : Bool) (s : State) :
    wordOut 1 (cin c s) = ⟨if c && s.flag .c then 2 else 1, false, false⟩ := by
  rw [wordOut_eq _ _ (cin_le_one c s), cin]
  cases c && s.flag .c <;> decide

/-- Settles O33: the flag write of that answer clears bits 29:25 of R14. -/
theorem oneResult : Obligations.OneResult := by
  intro cond c m d s0 s1 s hc hr
  have hexec : AluAnswers (.one cond c m d s0 s1) m d s0 s1 s _ :=
    aluAnswers_of_execAlu (f := fun _ _ => wordOut 1) rfl hc hr (wordOut_one c s)
  refine ⟨_, hexec, ?_, ?_⟩
  · rintro rfl
    rfl
  · rintro rfl
    have hflags (b : Bool) : flagBits false (if b then 2 else 1 : Word).msb ((if b then 2 else 1 : Word) == 0) false
        ((if b then 2 else 1 : Word) == 0xFFFFFFFF) = 0#32 := by
      cases b <;> decide
    rw [State.aluFlags_true, hflags, BitVec.or_zero]

/-! ### R14 and R15 as destinations -/

/-- MOVE without carry-in writes its source value and describes it (R115). -/
theorem aluAnswers_move {cond : Cond} {m : Bool} {d s0 s1 : Operand} {s : State} (hc : s.meets cond = true)
    (hr : operandsReady d s0 s1 s = true) :
    AluAnswers (.move cond false m d s0 s1) m d s0 s1 s ⟨value0 d s0 s1 s, false, false⟩ := by
  simpa [cin] using moveResult cond false m d s0 s1 s hc hr

/-- Settles O18: the destination write sets bit 24, and the flag write replaces bits 29:25 of what it left. -/
theorem statusRegisterDestination : Obligations.StatusRegisterDestination := by
  intro cond m s0 s1 s hc hr v
  refine ⟨_, aluAnswers_move hc hr, ?_⟩
  have h14 : (destState (.reg 14) v (sourcesRead (.reg 14) s0 s1 s)).reg 14 = v ||| 0x01000000 :=
    State.reg_writeReg_self _ 14 v
  cases m with
  | false => exact h14
  | true =>
    have hmask : (v ||| 0x01000000#32) &&& 0xC1FFFFFF#32 = (v &&& 0xC1FFFFFF#32) ||| 0x01000000#32 := by
      rw [BitVec.and_comm, BitVec.and_or_distrib_left, BitVec.and_comm _ v]
      rfl
    rw [State.reg14_aluFlags, h14]
    exact congrArg (· ||| flagBits false v.msb (v == 0) false (v == 0xFFFFFFFF)) hmask

/-- Settles O46: the flag write does not touch R15, and the sources of the third instruction leave R15 past its two
cells. -/
theorem jumpsGoToResult : Obligations.JumpsGoToResult := by
  refine ⟨fun cond m s0 s1 s hc => ⟨fun hr => ?move, fun hr => ?increment⟩, fun cond m n s hc => ?relative⟩
  case move =>
    refine ⟨_, aluAnswers_move hc hr, ?_⟩
    rw [State.reg_aluFlags_of_ne _ _ _ (by decide)]
    exact State.reg_writeReg_self _ 15 _
  case increment =>
    refine ⟨_, aluAnswers_move hc hr, ?_⟩
    rw [State.reg_aluFlags_of_ne _ _ _ (by decide)]
    exact (State.reg_writeReg_self _ 15 _).trans (congrArg (· + 1) (State.reg_writeReg_self _ 15 _))
  case relative =>
    refine ⟨_, addResult cond false m (.reg 15) (.reg 15) (.const 0 n) s hc rfl, ?_⟩
    rw [State.reg_aluFlags_of_ne _ _ _ (by decide)]
    have h0 : value0 (.reg 15) (.reg 15) (.const 0 n) s = s.reg 15 + 2 := s.reg_advance 2 15
    have h1 : value1 (.reg 15) (.reg 15) (.const 0 n) s = n := add_zero n
    rw [h0, h1]
    exact (State.reg_writeReg_self _ 15 _).trans (add_zero _)

end Sys2Proof.Machine
end

section
/-! What stops an instruction (20_memory.md section 1, 60_exceptions.md section 1): an address that is not admitted, and
the two refusals; and that nothing else does. -/

namespace Sys2Proof

theorem Operand.form_of_not_isPlace {d : Operand} (h : d.isPlace = false) : d.form = .const := by
  cases d with
  | const r k => rfl
  | _ => cases h

namespace Machine

/-! ### Full memory -/

theorem State.admitted_of_fullMemory {s : State} (h : s.cfg.memWords = 2 ^ 32) (a : Word) : s.admitted a = true := by
  simp only [State.admitted, h]
  exact decide_eq_true a.isLt

theorem operandReady_of_fullMemory {s : State} (h : s.cfg.memWords = 2 ^ 32) (o : Operand) :
    operandReady o s = true := by
  unfold operandReady
  split
  · rfl
  · exact State.admitted_of_fullMemory h _

/-- With the whole address space present a destination that is a place is all an instruction asks for (R51). -/
theorem operandsReady_of_fullMemory {d : Operand} {s : State} (h : s.cfg.memWords = 2 ^ 32) (hp : d.isPlace = true)
    (s0 s1 : Operand) : operandsReady d s0 s1 s = true := by
  have h1 : (operandState d s0 s1 s).cfg.memWords = 2 ^ 32 := h
  have h0 : (sourceState s1 (operandState d s0 s1 s)).cfg.memWords = 2 ^ 32 := by rwa [cfg_sourceState]
  have hd : (sourcesRead d s0 s1 s).cfg.memWords = 2 ^ 32 := by rwa [sourcesRead, cfg_sourceState]
  rw [operandsReady, hp, operandReady_of_fullMemory h1, operandReady_of_fullMemory h0, operandReady_of_fullMemory hd]
  rfl

/-- Settles O36: it is skipped, or its operands are ready. -/
theorem aluCompletesWithFullMemory : Obligations.AluCompletesWithFullMemory := by
  intro cond c m d s0 s1 s hmem hp i hi
  obtain ⟨f, hexec⟩ := exec_of_mem_aluInstrs hi s
  rw [hexec]
  cases hc : s.meets cond with
  | false => exact ⟨_, conditionally_of_meets_false hc⟩
  | true => exact ⟨_, execAlu_of_ready hc (operandsReady_of_fullMemory hmem hp s0 s1)⟩

/-! ### Addresses that are not admitted -/

/-- A source operand is stuck where the address it reads is not admitted (R51). -/
theorem readSource_stuck {o : Operand} {s : State} {a : Word} (hload : loadAddress o s = some a)
    (ha : s.admitted a = false) : readSource o s = .fault (.notAdmitted a) := by
  have hpre : (preDecrement o s).admitted a = false := (State.admitted_congr (cfg_preDecrement s o) a).trans ha
  unfold loadAddress at hload
  simp only [readSource, hload, load_of_not_admitted hpre]
  rfl

/-- A destination operand is stuck where the address it stores to is not admitted (R51). -/
theorem writeDest_stuck {d : Operand} {s : State} {a : Word} (hp : d.isPlace = true) (v : Word)
    (haddr : operandAddress d (preDecrement d s) = some a) (ha : s.admitted a = false) :
    writeDest d v s = .fault (.notAdmitted a) := by
  have hpre : (preDecrement d s).admitted a = false := (State.admitted_congr (cfg_preDecrement s d) a).trans ha
  simp only [writeDest, onPlace, hp, if_true, haddr, store, hpre]
  rfl

/-- Once its condition holds an instruction is stuck at the first of source 1, source 0 and destination whose address is
not admitted, whatever it computes (R51, R168). -/
theorem withSources_stuck {d s0 s1 : Operand} {s : State} {a : Word} {result : Word → Word → Word}
    {flags : Word → Word → State → Result State} (hp : d.isPlace = true) (ha : s.admitted a = false)
    (hstuck : loadAddress s1 (operandState d s0 s1 s) = some a ∨
      (operandReady s1 (operandState d s0 s1 s) = true ∧
        loadAddress s0 (sourceState s1 (operandState d s0 s1 s)) = some a) ∨
      (operandReady s1 (operandState d s0 s1 s) = true ∧
        operandReady s0 (sourceState s1 (operandState d s0 s1 s)) = true ∧ storeAddress d s0 s1 s = some a)) :
    withSources s0 s1 (operandState d s0 s1 s)
      (fun v0 v1 t => andThen (writeDest d (result v0 v1) t) (flags v0 v1)) = .fault (.notAdmitted a) := by
  have hadm {u : State} (e : u.cfg = s.cfg) : u.admitted a = false := (State.admitted_congr e a).trans ha
  unfold withSources
  obtain h1 | ⟨r1, h0⟩ | ⟨r1, r0, hd⟩ := hstuck
  · rw [readSource_stuck h1 (hadm rfl)]
    rfl
  · rw [readSource_of_ready r1, andThen_next, readSource_stuck h0 (hadm (cfg_sourceState ..))]
    rfl
  · have hwrite (v : Word) : writeDest d v (sourcesRead d s0 s1 s) = .fault (.notAdmitted a) :=
      writeDest_stuck hp v hd (hadm ((cfg_sourceState ..).trans (cfg_sourceState ..)))
    rw [readSource_of_ready r1, andThen_next, readSource_of_ready r0, andThen_next]
    change andThen (writeDest d _ (sourcesRead d s0 s1 s)) _ = _
    rw [hwrite]
    rfl

/-- Settles O58: both courses read the sources and then write the destination. -/
theorem unadmittedOperandIsStuck : Obligations.UnadmittedOperandIsStuck := by
  rintro cond c m d s0 s1 s i a hc hp hi ha hstuck
  obtain hi | ⟨row, hrow, rfl, hknown⟩ := hi
  · obtain ⟨f, hexec⟩ := exec_of_mem_aluInstrs hi s
    rw [hexec, execAlu, conditionally, if_pos hc, onPlace, if_pos hp]
    exact withSources_stuck hp ha hstuck
  · obtain ⟨desc, hdesc⟩ := Option.ne_none_iff_exists'.mp hknown
    have hentry : s.shiftEntry row.1 = some desc := hdesc
    rw [exec_of_mem_shiftRows hrow, execShift, conditionally, if_pos hc, onPlace, if_pos hp]
    simp only [hentry]
    exact withSources_stuck (result := fun v0 _ => (shiftWordBy desc.dir (fillBit desc.fill s) v0).1) hp ha hstuck

/-! ### Refusals -/

/-- A sequence is refused where one of its parts is. -/
theorem andThen_eq_refused {α β : Type} {x : Result α} {f : α → Result β} {r : Refusal} :
    andThen x f = .refused r ↔ x = .refused r ∨ ∃ a, x = .next a ∧ f a = .refused r := by
  cases x <;> simp [andThen]

theorem load_ne_refused (a : Word) (s : State) (r : Refusal) : load a s ≠ .refused r := by
  unfold load
  split <;> simp

theorem store_ne_refused (a v : Word) (s : State) (r : Refusal) : store a v s ≠ .refused r := by
  unfold store
  split <;> simp

theorem readSource_ne_refused (o : Operand) (s : State) (r : Refusal) : readSource o s ≠ .refused r := by
  unfold readSource
  dsimp only
  split
  · simp
  · simp [andThen_eq_refused, load_ne_refused]

/-- A destination that is a place is not refused (R86). -/
theorem writeDest_ne_refused {d : Operand} (hp : d.isPlace = true) (v : Word) (s : State) (r : Refusal) :
    writeDest d v s ≠ .refused r := by
  rw [writeDest, onPlace, if_pos hp]
  split
  · simp
  · simp [andThen_eq_refused, store_ne_refused]

/-- Reading the sources and then writing a destination that is a place is not refused. -/
theorem withSources_ne_refused {d : Operand} (hp : d.isPlace = true) {result : Word → Word → Word}
    {flags : Word → Word → State → State} (s0 s1 : Operand) (s : State) (r : Refusal) :
    withSources s0 s1 s (fun v0 v1 t => andThen (writeDest d (result v0 v1) t) fun t => .next (flags v0 v1 t)) ≠
      .refused r := by
  simp [withSources, andThen_eq_refused, readSource_ne_refused, writeDest_ne_refused hp]

/-- An ALU instruction is refused only for its destination (R86, D2). -/
theorem execAlu_eq_refused {f : Word → Word → Int → AluOut} {cond : Cond} {c m : Bool} {d s0 s1 : Operand} {s : State}
    {r : Refusal} (h : execAlu f cond c m d s0 s1 s = .refused r) :
    s.meets cond = true ∧ r = .destMode011 ∧ d.form = .const := by
  cases hc : s.meets cond with
  | false => simp [execAlu, conditionally, hc] at h
  | true =>
    cases hp : d.isPlace with
    | true =>
      rw [execAlu, conditionally, if_pos hc, onPlace, if_pos hp] at h
      exact absurd h (withSources_ne_refused hp s0 s1 _ r)
    | false =>
      cases (conditionally_onPlace_refused hc hp).symm.trans h
      exact ⟨rfl, rfl, Operand.form_of_not_isPlace hp⟩

/-- A shift is refused only for its destination or for an unknown SHIFT_TABLE entry (R86, R145). -/
theorem execShift_eq_refused {op : BitVec 4} {cond : Cond} {m : Bool} {d s0 s1 : Operand} {s : State} {r : Refusal}
    (h : execShift op cond m d s0 s1 s = .refused r) :
    s.meets cond = true ∧
      ((r = .destMode011 ∧ d.form = .const) ∨ (r = .shiftOpcodeUnknown op ∧ s.shiftEntry op = none)) := by
  cases hc : s.meets cond with
  | false => simp [execShift, conditionally, hc] at h
  | true =>
    refine ⟨rfl, ?_⟩
    cases hp : d.isPlace with
    | true =>
      rw [execShift, conditionally, if_pos hc, onPlace, if_pos hp] at h
      cases hentry : s.shiftEntry op with
      | none =>
        simp only [hentry] at h
        cases h
        exact .inr ⟨rfl, rfl⟩
      | some desc =>
        simp only [hentry] at h
        exact absurd h
          (withSources_ne_refused (result := fun v0 _ => (shiftWordBy desc.dir (fillBit desc.fill s) v0).1) hp
            s0 s1 _ r)
    | false =>
      cases (conditionally_onPlace_refused hc hp).symm.trans h
      exact .inl ⟨rfl, Operand.form_of_not_isPlace hp⟩

/-- A refused step comes from the instruction it fetches: interrupt entry and the fetch itself are not refused. -/
theorem step_eq_refused {s : State} {r : Refusal} (h : step s = .refused r) :
    ∃ i, fetch s.polled = .next i ∧ exec i s.polled = .refused r := by
  unfold step at h
  split at h
  · cases h
  · unfold cycle at h
    split at h
    · exact absurd h (State.takeInterrupt_ne_refused _ r)
    · obtain hfetch | hexec := andThen_eq_refused.mp h
      · exact absurd hfetch (fetch_ne_refused _ r)
      · exact hexec

/-- Looking for a request changes nothing an instruction or its fetch looks at. -/
theorem cellsAtPc_polled (s : State) : cellsAtPc s.polled = cellsAtPc s := by
  simp [cellsAtPc, State.cell]

theorem State.meets_polled (s : State) (c : Cond) : s.polled.meets c = s.meets c := by
  simp [State.meets, State.flag]

/-- Settles O48: the step executes the instruction the cells decode to, and by its group it is refused for its
destination or its table entry. -/
theorem refusalsAreTheTwoNamed : Obligations.RefusalsAreTheTwoNamed := by
  intro s r h
  obtain ⟨i, hfetch, hexec⟩ := step_eq_refused h
  obtain ⟨rest, hdec⟩ := decode_of_fetch hfetch
  rw [State.cfg_polled, cellsAtPc_polled] at hdec
  obtain ⟨cond, bits, rfl⟩ | ⟨cond, c, m, d, s0, s1, op, rfl⟩ | ⟨cond, m, d, s0, s1, op, rfl⟩ := i.group_cases
  · have hhalt : exec (.halt cond bits) s.polled = execHalt cond bits s.polled := rfl
    simp only [hhalt, execHalt, conditionally] at hexec
    split at hexec <;> cases hexec
  · obtain ⟨f, hf⟩ := exec_aluInstr op cond c m d s0 s1 s.polled
    obtain ⟨hc, hr⟩ := execAlu_eq_refused (hf.symm.trans hexec)
    rw [State.meets_polled] at hc
    exact ⟨_, rest, d, s0, s1, hdec, (aluInstr_cond ..).symm ▸ hc, aluInstr_operands .., .inl hr⟩
  · rw [exec_shiftInstr] at hexec
    obtain ⟨hc, hr⟩ := execShift_eq_refused hexec
    rw [State.meets_polled] at hc
    refine ⟨_, rest, d, s0, s1, hdec, (shiftInstr_cond ..).symm ▸ hc, shiftInstr_operands .., hr.imp id ?_⟩
    rintro ⟨rfl, hentry⟩
    rw [State.shiftEntry, State.cfg_polled] at hentry
    exact ⟨op, m, rfl, mem_shiftRows_iff.mpr (by rw [shiftInstr_cond]), hentry⟩

/-- Settles O41: the entry is looked up once the condition and the destination are found good, and the default table has
no entry. -/
theorem unknownShiftIsRefused : Obligations.UnknownShiftIsRefused := by
  refine ⟨fun cond m d s0 s1 s hc hp row hrow hunknown => ?_, by decide⟩
  have hentry : s.shiftEntry row.1 = none := hunknown
  rw [exec_of_mem_shiftRows hrow, execShift, conditionally, if_pos hc, onPlace, if_pos hp]
  simp only [hentry]

end Machine

end Sys2Proof
end

section
/-! What an executed ALU instruction or shift leaves unchanged (10_state.md sections 2 to 4): its operands first, then
its flag update. -/

namespace Sys2Proof.Machine

/-! ### Operands -/

/-- A write changes no other cell, whether or not the memory is in canonical form (R54). -/
theorem Memory.read_write_of_ne {a b : Nat} (h : b ≠ a) (m : Memory) (v : Word) :
    (m.write a v).read b = m.read b := by
  have cell (rest : Memory) : (Memory.cell a v rest).read b = rest.read b := by
    unfold Memory.cell
    split
    · rfl
    · simp [Memory.read, h]
  induction m with
  | nil => exact cell []
  | cons p rest ih =>
    simp only [Memory.write]
    split
    · exact cell _
    · split
      · next heq =>
        have hb : b ≠ p.1 := heq ▸ h
        rw [cell, Memory.read, if_neg hb]
      · simp only [Memory.read, ih]

theorem State.cell_writeCell_of_ne {a b : Word} (h : b ≠ a) (s : State) (v : Word) :
    (s.writeCell a v).cell b = s.cell b :=
  Memory.read_write_of_ne (fun e => h (BitVec.eq_of_toNat_eq e)) s.mem v

/-- A source operand leaves the registers it does not increment or decrement (R169). -/
theorem reg_sourceState {o : Operand} {j : RegNo} (h : ¬ sourceWrites o j) (s : State) :
    (sourceState o s).reg j = s.reg j := by
  cases o with
  | preDec r | postInc r | memPreDec r | memPostInc r => exact State.reg_writeReg_of_ne s h _
  | reg r | const r k | mem r | memConst r k => rfl

/-- A destination leaves the registers it does not write (R180 to R187). -/
theorem reg_destState {d : Operand} {j : RegNo} (hp : d.isPlace = true) (h : ¬ destWrites d j) (v : Word) (s : State) :
    (destState d v s).reg j = s.reg j := by
  cases d with
  | const r k => cases hp
  | reg r => exact State.reg_writeReg_of_ne s h v
  | preDec r | postInc r => exact (State.reg_writeReg_of_ne _ h _).trans (State.reg_writeReg_of_ne _ h _)
  | memPreDec r | memPostInc r => exact State.reg_writeReg_of_ne _ h _
  | mem r | memConst r k => rfl

/-- A destination that does not go through memory leaves memory and screen. -/
theorem mem_screen_destState {d : Operand} {s : State} (h : operandAddress d (preDecrement d s) = none) (v : Word) :
    (destState d v s).mem = s.mem ∧ (destState d v s).screen = s.screen := by
  simp [destState, h]

/-- A destination leaves every cell but the one it stores to. -/
theorem cell_destState {d : Operand} {s : State} {b : Word} (h : operandAddress d (preDecrement d s) ≠ some b)
    (v : Word) : (destState d v s).cell b = s.cell b := by
  cases ha : operandAddress d (preDecrement d s) with
  | none => simp [State.cell, mem_screen_destState ha]
  | some a =>
    have hne : b ≠ a := fun e => h (e ▸ ha)
    have hcell := State.cell_writeCell_of_ne hne (preDecrement d s) v
    simpa [destState, ha, State.cell] using hcell

theorem isPlace_of_operandsReady {d s0 s1 : Operand} {s : State} (h : operandsReady d s0 s1 s = true) :
    d.isPlace = true := by
  simp only [operandsReady, Bool.and_eq_true] at h
  obtain ⟨⟨⟨hp, -⟩, -⟩, -⟩ := h
  exact hp

/-- The operands of an instruction leave the registers they do not write, R15 apart. -/
theorem reg_destState_sourcesRead {d s0 s1 : Operand} {j : RegNo} (hp : d.isPlace = true) (h15 : j ≠ 15)
    (h : ¬ operandWrites d s0 s1 j) (v : Word) (s : State) :
    (destState d v (sourcesRead d s0 s1 s)).reg j = s.reg j := by
  obtain ⟨hd, h0, h1⟩ : ¬ destWrites d j ∧ ¬ sourceWrites s0 j ∧ ¬ sourceWrites s1 j := by
    simpa [operandWrites] using h
  rw [reg_destState hp hd, sourcesRead, reg_sourceState h0, reg_sourceState h1, operandState, State.reg_advance,
    if_neg h15]

@[simp] theorem mem_sourcesRead (d s0 s1 : Operand) (s : State) : (sourcesRead d s0 s1 s).mem = s.mem := by
  simp [sourcesRead, operandState]

@[simp] theorem screen_sourcesRead (d s0 s1 : Operand) (s : State) : (sourcesRead d s0 s1 s).screen = s.screen := by
  simp [sourcesRead, operandState]

/-- What the operands of an instruction leave unchanged. -/
theorem operandFrame_destState {d : Operand} (hp : d.isPlace = true) (s0 s1 : Operand) (v : Word) (s : State) :
    OperandFrame d s0 s1 s (destState d v (sourcesRead d s0 s1 s)) := by
  refine ⟨fun j _ h15 hw => reg_destState_sourcesRead hp h15 hw v s, fun b hb => ?_, fun hnone => ?_, ?_, ?_, ?_⟩
  · rw [cell_destState hb, State.cell, mem_sourcesRead, State.cell]
  · simpa using mem_screen_destState hnone v
  all_goals simp [sourcesRead, operandState]

/-- What changes R14 alone keeps the frame, which does not speak of R14. -/
theorem OperandFrame.of_onlyR14 {d s0 s1 : Operand} {s u t : State} (h : OperandFrame d s0 s1 s u)
    (hreg : ∀ j : RegNo, j ≠ 14 → t.reg j = u.reg j) (hmem : t.mem = u.mem) (hscreen : t.screen = u.screen)
    (hhalted : t.halted = u.halted) (hcfg : t.cfg = u.cfg) (hpolls : t.polls = u.polls) :
    OperandFrame d s0 s1 s t := by
  obtain ⟨freg, fcell, fmem, fhalted, fcfg, fpolls⟩ := h
  refine ⟨fun j h14 h15 hw => (hreg j h14).trans (freg j h14 h15 hw), fun b hb => ?_, fun hnone => ?_,
    hhalted.trans fhalted, hcfg.trans fcfg, hpolls.trans fpolls⟩
  · rw [State.cell, hmem]
    exact fcell b hb
  · rw [hmem, hscreen]
    exact fmem hnone

/-! ### Flag updates -/

/-- The flag write of an ALU instruction changes bits 29:25 of R14, and those with M alone (R114). -/
theorem State.bit_aluFlags_of_not_flag {m : Bool} {n : Nat} (hn : m = false ∨ n < 25 ∨ 29 < n) (s : State)
    (out : AluOut) : ((s.aluFlags m out).reg 14).getLsbD n = (s.reg 14).getLsbD n := by
  cases m with
  | false => rfl
  | true =>
    have hn : n < 25 ∨ 29 < n := by simpa using hn
    have hne : n ≠ 29 ∧ n ≠ 28 ∧ n ≠ 27 ∧ n ≠ 26 ∧ n ≠ 25 := by omega
    simp [State.bit_aluFlags, hne]

/-- With M clear a shift updates C alone, and only if the sink is the carry (R146). -/
theorem State.bit_shiftFlags_false (s : State) (k : ShiftSink) (r : Word) (b : Bool) (j : Nat) :
    ((s.shiftFlags false k r b).reg 14).getLsbD j = if j = 26 ∧ k = .carry then b else (s.reg 14).getLsbD j := by
  cases k with
  | discard => simp [State.shiftFlags]
  | carry => simpa [State.shiftFlags, StatusBit.pos, StatusBit.code] using s.bit_setFlag .c b (by decide) j

/-- The flag update of a shift changes C only if the sink is the carry, and of bits 29:25 else only with M (R146). -/
theorem State.bit_shiftFlags_of_not_flag {m : Bool} {k : ShiftSink} {n : Nat} (hc : n ≠ 26 ∨ k = .discard)
    (hm : m = false ∨ n < 25 ∨ 29 < n ∨ n = 26) (s : State) (r : Word) (b : Bool) :
    ((s.shiftFlags m k r b).reg 14).getLsbD n = (s.reg 14).getLsbD n := by
  have hcarry : ¬ (n = 26 ∧ k = .carry) := by
    rintro ⟨h26, rfl⟩
    simp [h26] at hc
  cases m with
  | false => rw [State.bit_shiftFlags_false, if_neg hcarry]
  | true =>
    have hm : n < 25 ∨ 29 < n ∨ n = 26 := by simpa using hm
    have hne : n ≠ 29 ∧ n ≠ 28 ∧ n ≠ 27 ∧ n ≠ 25 := by omega
    simp [State.bit_shiftFlags, hne, hcarry]

/-! ### The frames -/

/-- Settles O35: the destination and the sources leave what the frame names, and the flag write changes R14 alone. -/
theorem aluFrame : Obligations.AluFrame := by
  intro cond c m d s0 s1 s t hc i hi h
  obtain ⟨f, hexec⟩ := exec_of_mem_aluInstrs hi s
  obtain ⟨hskip, -⟩ | ⟨-, hready, rfl⟩ := execAlu_eq_next.mp (hexec.symm.trans h)
  · exact absurd (hc.symm.trans hskip) (by simp)
  have hp := isPlace_of_operandsReady hready
  refine ⟨(operandFrame_destState hp s0 s1 _ s).of_onlyR14 (fun j hj => State.reg_aluFlags_of_ne _ _ _ hj)
    (by simp) (by simp) (by simp) (by simp) (by simp), fun h14 n hn => ?_⟩
  rw [State.bit_aluFlags_of_not_flag hn, reg_destState_sourcesRead hp (by decide) h14]

/-- Settles O42: as for the ALU, with the flag update of the shift's descriptor. -/
theorem shiftFrame : Obligations.ShiftFrame := by
  intro cond m d s0 s1 s t hc row hrow h
  obtain ⟨hskip, -⟩ | ⟨-, hready, desc, hentry, rfl⟩ :=
    execShift_eq_next.mp ((exec_of_mem_shiftRows hrow s).symm.trans h)
  · exact absurd (hc.symm.trans hskip) (by simp)
  have hp := isPlace_of_operandsReady hready
  refine ⟨(operandFrame_destState hp s0 s1 _ s).of_onlyR14 (fun j hj => State.reg_shiftFlags_of_ne _ _ _ _ _ hj)
    (by simp [shifted]) (by simp [shifted]) (by simp [shifted]) (by simp [shifted]) (by simp [shifted]), fun h14 => ?_⟩
  have h14' (v : Word) : (destState d v (sourcesRead d s0 s1 s)).reg 14 = s.reg 14 :=
    reg_destState_sourcesRead hp (by decide) h14 v s
  refine ⟨fun n h26 hn => ?_, fun desc' hdesc hsink => ?_⟩
  · rw [shifted, State.bit_shiftFlags_of_not_flag (.inl h26) (hn.imp_right (.imp_right .inl)), h14']
  · obtain rfl : desc' = desc := Option.some.inj (hdesc.symm.trans hentry)
    rw [← BitVec.getLsbD_eq_getElem, ← BitVec.getLsbD_eq_getElem, shifted,
      State.bit_shiftFlags_of_not_flag (.inr hsink) (.inr (.inr (.inr rfl))), h14']

end Sys2Proof.Machine
end

section
/-! The shifts (42_shift.md): the general rule R142 on words, the two descriptors the source gives, and the rotation
through the carry. -/

namespace Sys2Proof.Machine

/-! ### One position -/

/-- One position to the right: the fill bit enters at bit 31, bit 0 leaves (R142). -/
theorem shiftWordBy_right (f : Bool) (v : Word) :
    shiftWordBy .right f v = ((v >>> 1) ||| (if f then 0x80000000 else 0), v[0]) := by
  refine Prod.ext (BitVec.eq_of_getLsbD_eq fun j hj => ?_) rfl
  change (BitVec.ofBool f ++ v.extractLsb' 1 31).getLsbD j = _
  rw [BitVec.getLsbD_append, BitVec.getLsbD_or, BitVec.getLsbD_ushiftRight]
  have hfill : (if f then 0x80000000 else 0 : Word).getLsbD j = (decide (j = 31) && f) := by
    cases f
    · simp
    · revert j; decide
  rw [hfill]
  by_cases h31 : j = 31
  · subst h31
    simp
  · have h : j < 31 := by omega
    simp [h31, h, Nat.add_comm]

/-- One position to the left: the fill bit enters at bit 0, bit 31 leaves (R142). -/
theorem shiftWordBy_left (f : Bool) (v : Word) :
    shiftWordBy .left f v = ((v <<< 1) ||| (if f then 1 else 0), v.msb) := by
  refine Prod.ext (BitVec.eq_of_getLsbD_eq fun j hj => ?_) ?_
  · change (v.extractLsb' 0 31 ++ BitVec.ofBool f).getLsbD j = _
    rw [BitVec.getLsbD_append, BitVec.getLsbD_or, BitVec.getLsbD_shiftLeft]
    have hfill : (if f then 1 else 0 : Word).getLsbD j = (decide (j = 0) && f) := by
      cases f
      · simp
      · revert j; decide
    rw [hfill]
    by_cases h0 : j = 0
    · subst h0
      simp
    · have h : j - 1 < 31 := by omega
      have h1 : ¬ j < 1 := by omega
      simp [h0, h, h1, hj]
  · simp [shiftWordBy, BitVec.msb_eq_getLsbD_last]

/-- A shift with a known entry and ready operands completes as its descriptor says (R142). -/
theorem exec_shiftRow_of_ready {cond : Cond} {m : Bool} {d s0 s1 : Operand} {s : State} {desc : ShiftDesc}
    {row : BitVec 4 × Instr} (hc : s.meets cond = true) (hr : operandsReady d s0 s1 s = true)
    (hrow : row ∈ shiftRows cond m d s0 s1) (hentry : s.cfg.shiftTable[row.1.toFin] = some desc) :
    exec row.2 s = .next (shifted desc m d s0 s1 s) :=
  (exec_of_mem_shiftRows hrow s).trans (execShift_eq_next.mpr (.inr ⟨hc, hr, desc, hentry, rfl⟩))

/-- A status bit is the bit of R14 at its place (R25). -/
theorem State.flag_eq_getElem (s : State) (f : StatusBit) : s.flag f = (s.reg 14)[f.pos]'f.pos_lt :=
  BitVec.getLsbD_eq_getElem f.pos_lt

/-- Settles O37: by the direction and the fill of the descriptor. -/
theorem shiftByTableEntry : Obligations.ShiftByTableEntry := by
  intro cond m d s0 s1 s desc hc hr row hrow hentry v f result out
  rw [exec_shiftRow_of_ready hc hr hrow hentry]
  have hf : fillBit desc.fill s = f := by
    unfold fillBit f
    cases desc.fill with
    | zero | other k => rfl
    | carry => exact s.flag_eq_getElem .c
  have hp : shiftWordBy desc.dir f v = (result, out) := by
    unfold result out
    cases desc.dir with
    | right => exact shiftWordBy_right f v
    | left => exact shiftWordBy_left f v
  simp only [shifted, hf, show value0 d s0 s1 s = v from rfl, hp]

/-! ### `0<0` and `C>C` -/

/-- `0<0` on its course: the word doubled, bit 31 discarded (R143). -/
theorem shifted_zeroLeftZero (m : Bool) (d s0 s1 : Operand) (s : State) :
    shifted .zeroLeftZero m d s0 s1 s =
      (destState d (value0 d s0 s1 s <<< 1) (sourcesRead d s0 s1 s)).shiftFlags m .discard (value0 d s0 s1 s <<< 1)
        (value0 d s0 s1 s).msb := by
  have h := shiftWordBy_left false (value0 d s0 s1 s)
  simp only [Bool.false_eq_true, if_false, BitVec.ofNat_eq_ofNat, BitVec.or_zero] at h
  simp only [shifted, ShiftDesc.zeroLeftZero, fillBit, h]

/-- `C>C` on its course: the word rotated right through C (R144). -/
theorem shifted_carryRightCarry (m : Bool) (d s0 s1 : Operand) (s : State) :
    let rotated : Word := (value0 d s0 s1 s >>> 1) ||| (if (s.reg 14)[26] then 0x80000000 else 0)
    shifted .carryRightCarry m d s0 s1 s =
      (destState d rotated (sourcesRead d s0 s1 s)).shiftFlags m .carry rotated (value0 d s0 s1 s)[0] := by
  have hc : s.flag .c = (s.reg 14)[26] := s.flag_eq_getElem .c
  simp only [shifted, ShiftDesc.carryRightCarry, fillBit, hc, shiftWordBy_right]

/-- The mask that clears bits 29:25 but C. -/
theorem getLsbD_flagMask_but_carry (j : Nat) :
    (0xC5FFFFFF : Word).getLsbD j = decide (j < 32 ∧ (j < 25 ∨ j = 26 ∨ 29 < j)) := by
  by_cases hj : j < 32
  · revert j; decide
  · rw [BitVec.getLsbD_of_ge _ _ (by omega)]
    simp [hj]

/-- R14 after a shift with M set that discards the bit shifted out: N, Z and X describe the result, V is clear, C and
every other bit as before (R146). -/
theorem State.reg14_shiftFlags_discard (s : State) (r : Word) (b : Bool) :
    (s.shiftFlags true .discard r b).reg 14 =
      (s.reg 14 &&& 0xC5FFFFFF) ||| flagBits false r.msb (r == 0) false (r == 0xFFFFFFFF) := by
  apply BitVec.eq_of_getLsbD_eq
  intro j hj
  rw [State.bit_shiftFlags, BitVec.getLsbD_or, BitVec.getLsbD_and, getLsbD_flagMask_but_carry, getLsbD_flagBits]
  grind

/-- Settles O38: the doubled word is the one shifted left, and the flag update is that of a discarding shift. -/
theorem zeroLeftZeroShift : Obligations.ZeroLeftZeroShift := by
  intro cond m d s0 s1 s hc hr row hrow hentry result u
  have hresult : value0 d s0 s1 s <<< 1 = result := by
    apply BitVec.eq_of_toNat_eq
    simp [result, BitVec.toNat_shiftLeft, Nat.shiftLeft_eq, Nat.mul_comm]
  have hexec := exec_shiftRow_of_ready hc hr hrow hentry
  rw [shifted_zeroLeftZero, hresult] at hexec
  refine ⟨_, hexec, ?carry, ?plain, ?flags⟩
  case carry =>
    rw [← BitVec.getLsbD_eq_getElem, ← BitVec.getLsbD_eq_getElem]
    exact State.bit_shiftFlags_of_not_flag (.inr rfl) (.inr (.inr (.inr rfl))) u result _
  case plain =>
    rintro rfl
    rfl
  case flags =>
    rintro rfl
    refine ⟨fun j => ?_, State.mem_shiftFlags .., State.halted_shiftFlags .., State.screen_shiftFlags ..,
      State.cfg_shiftFlags .., State.polls_shiftFlags ..⟩
    split
    · next h14 => rw [h14]; exact State.reg14_shiftFlags_discard u result _
    · next h14 => exact State.reg_shiftFlags_of_ne u _ _ _ _ h14

/-- Settles O39: the flag update of a shift whose sink is the carry, bit by bit. -/
theorem carryRightCarryShift : Obligations.CarryRightCarryShift := by
  intro cond m d s0 s1 s hc hr row hrow hentry v result u
  have hexec := exec_shiftRow_of_ready hc hr hrow hentry
  rw [shifted_carryRightCarry] at hexec
  refine ⟨_, hexec, ?carry, fun j h14 => State.reg_shiftFlags_of_ne u _ _ _ _ h14, State.mem_shiftFlags ..,
    fun n h26 hn => State.bit_shiftFlags_of_not_flag (.inl h26) (hn.imp_right (.imp_right .inl)) u result _, ?flags⟩
  case carry =>
    rw [← BitVec.getLsbD_eq_getElem]
    cases m with
    | false => exact State.bit_shiftFlags_false u .carry result v[0] 26
    | true => exact State.bit_shiftFlags u .carry result v[0] 26
  case flags =>
    rintro rfl
    simp only [← BitVec.getLsbD_eq_getElem]
    have hbit := State.bit_shiftFlags u .carry result v[0]
    exact ⟨hbit 28, hbit 27, hbit 25, hbit 29⟩

/-- Settles O59: a table within its limit that knows every entry has both, and each completes on its course. -/
theorem knownShiftTableHasBothShifts : Obligations.KnownShiftTableHasBothShifts := by
  intro s hwf hknown
  obtain ⟨-, -, -, htable, -⟩ := hwf
  obtain ⟨⟨left, hleft⟩, right, hright⟩ := (ShiftTable.wf_iff_of_known hknown).mp htable
  refine ⟨.ofFin left, .ofFin right, hleft, hright, fun cond m d s0 s1 hc hr => ?_⟩
  have complete {op : Fin 16} {desc : ShiftDesc} (hentry : s.cfg.shiftTable[op] = some desc) :
      ∃ i, (.ofFin op, i) ∈ shiftRows cond m d s0 s1 ∧ exec i s = .next (shifted desc m d s0 s1 s) := by
    have hrow : (.ofFin op, shiftInstr (.ofFin op) cond m d s0 s1) ∈ shiftRows cond m d s0 s1 :=
      mem_shiftRows_iff.mpr rfl
    exact ⟨_, hrow, exec_shiftRow_of_ready hc hr hrow hentry⟩
  exact ⟨shifted_zeroLeftZero m d s0 s1 s ▸ complete hleft, shifted_carryRightCarry m d s0 s1 s ▸ complete hright⟩

/-! ### The rotation of 33 bits -/

/-- The 33 bits `C>C` rotates: the word in bits 31:0, C in bit 32. -/
def rotationBit (p : Word × Bool) (j : Nat) : Bool := if j = 32 then p.2 else p.1.getLsbD j

/-- One rotation moves every bit down by one place, around the 33 places (R144). -/
theorem rotationBit_rotateOnce (p : Word × Bool) {j : Nat} (hj : j < 33) :
    rotationBit (rotateOnce p) j = rotationBit p ((j + 1) % 33) := by
  obtain ⟨v, c⟩ := p
  have hrot : rotateOnce (v, c) = (BitVec.ofBool c ++ v.extractLsb' 1 31, v[0]) := rfl
  rw [hrot]
  rcases (by omega : j < 31 ∨ j = 31 ∨ j = 32) with h | rfl | rfl
  · have hne : j ≠ 32 := by omega
    rw [Nat.mod_eq_of_lt (by omega), rotationBit, if_neg hne, rotationBit, if_neg (by omega)]
    simp only [BitVec.getLsbD_append]
    simp [h, Nat.add_comm]
  · simp only [rotationBit, BitVec.getLsbD_append]
    simp
  · simp [rotationBit]

theorem rotationBit_iterate (k : Nat) (p : Word × Bool) {j : Nat} (hj : j < 33) :
    rotationBit (rotateOnce^[k] p) j = rotationBit p ((j + k) % 33) := by
  induction k generalizing p with
  | zero => rw [Function.iterate_zero, id, Nat.add_zero, Nat.mod_eq_of_lt hj]
  | succ k ih =>
    rw [Function.iterate_succ_apply, ih, rotationBit_rotateOnce p (Nat.mod_lt _ (by decide)), Nat.mod_add_mod,
      Nat.add_assoc]

/-- Settles O40: 33 rotations bring each of the 33 bits back to its place. -/
theorem rotateThroughCarryRestores : Obligations.RotateThroughCarryRestores := by
  intro p
  have hbit {j : Nat} (hj : j < 33) : rotationBit (rotateOnce^[33] p) j = rotationBit p j := by
    rw [rotationBit_iterate 33 p hj, Nat.add_mod_right, Nat.mod_eq_of_lt hj]
  refine Prod.ext (BitVec.eq_of_getLsbD_eq fun j hj => ?_) (hbit (j := 32) (by decide))
  have hne : j ≠ 32 := by omega
  have h := hbit (j := j) (by omega)
  rwa [rotationBit, if_neg hne, rotationBit, if_neg hne] at h

/-! ### One register in all three operands -/

theorem held_of_ne {r : RegNo} (h0 : r ≠ 0) (h14 : r ≠ 14) (v : Word) : held r v = v := by
  rw [held, if_neg h0, if_neg h14]

/-- With `Rr++` in all three operands source 1 reads the register and source 0 one more (R168, R172). -/
theorem values_postInc_thrice {r : RegNo} (h0 : r ≠ 0) (h14 : r ≠ 14) (h15 : r ≠ 15) (s : State) :
    value1 (.postInc r) (.postInc r) (.postInc r) s = s.reg r ∧
      value0 (.postInc r) (.postInc r) (.postInc r) s = s.reg r + 1 := by
  have hr : (s.advance 1).reg r = s.reg r := by rw [State.reg_advance, if_neg h15]
  have hr1 : ((s.advance 1).writeReg r ((s.advance 1).reg r + 1)).reg r = s.reg r + 1 := by
    rw [State.reg_writeReg_self, held_of_ne h0 h14, hr]
  exact ⟨hr, hr1⟩

/-- The result of such an instruction is left incremented, with R15 past the one cell (R182). -/
theorem exec_postInc_thrice {r : RegNo} (h0 : r ≠ 0) (h14 : r ≠ 14) (h15 : r ≠ 15) {s : State} {i : Instr} {m : Bool}
    {out : AluOut} (h : AluAnswers i m (.postInc r) (.postInc r) (.postInc r) s out) :
    ∃ t, exec i s = .next t ∧ t.reg r = out.result + 1 ∧ t.reg 15 = s.reg 15 + 1 := by
  have hself (u : State) (w : Word) : (u.writeReg r w).reg r = w := by
    rw [State.reg_writeReg_self, held_of_ne h0 h14]
  refine ⟨_, h, ?_, ?_⟩
  · rw [State.reg_aluFlags_of_ne _ _ _ h14]
    exact (hself _ _).trans (congrArg (· + 1) (hself _ _))
  · have hd : ¬ destWrites (.postInc r) 15 := Ne.symm h15
    have hs : ¬ sourceWrites (.postInc r) 15 := Ne.symm h15
    rw [State.reg_aluFlags_of_ne _ _ _ (by decide), reg_destState rfl hd, sourcesRead, reg_sourceState hs,
      reg_sourceState hs]
    exact s.reg_advance 1 15

/-- Settles O47: the two results are x + 1 + x and x + 1 - x, and each is left incremented. -/
theorem repeatedRegisterOrder : Obligations.RepeatedRegisterOrder := by
  intro r s cond m h0 h14 h15 hc
  obtain ⟨hv1, hv0⟩ := values_postInc_thrice h0 h14 h15 s
  have hcin : BitVec.ofNat 32 (cin false s) = 0 := rfl
  obtain ⟨t, hadd, hadd_r, hadd_pc⟩ := exec_postInc_thrice h0 h14 h15 (addResult cond false m _ _ _ s hc rfl)
  obtain ⟨u, hsub, hsub_r, hsub_pc⟩ := exec_postInc_thrice h0 h14 h15 (subResult cond false m _ _ _ s hc rfl)
  refine ⟨⟨t, hadd, hadd_r.trans ?_, hadd_pc⟩, u, hsub, hsub_r.trans ?_, hsub_pc⟩
  · rw [hv0, hv1, hcin]
    ring
  · rw [hv0, hv1, hcin]
    ring

end Sys2Proof.Machine
end

section
/-! Interrupts (60_exceptions.md section 2): what entry leaves unchanged, return, which requests are accepted, and when
one is taken. -/

namespace Sys2Proof.Machine

/-- What entry puts in R14 differs from what R14 held in bits 31 and 30 alone (R202, R203). -/
theorem getLsbD_interruptStatus (n : Nat) (w : Word) {j : Nat} (h30 : j ≠ 30) (h31 : j ≠ 31) :
    (interruptStatus n w).getLsbD j = w.getLsbD j := by
  by_cases hj : j < 32
  · have masks : ∀ k < 32, k ≠ 30 → k ≠ 31 → (0xBFFFFFFF : Word).getLsbD k = true ∧
        (0x80000000 : Word).getLsbD k = false ∧ (0x40000000 : Word).getLsbD k = false := by
      decide
    obtain ⟨hkeep, hi, hm⟩ := masks j hj h30 h31
    rw [interruptStatus, BitVec.getLsbD_or, BitVec.getLsbD_or, BitVec.getLsbD_and, hkeep, hi]
    split
    · rw [hm]; simp
    · simp
  · rw [BitVec.getLsbD_of_ge _ _ (by omega), BitVec.getLsbD_of_ge _ _ (by omega)]

/-- R14 as it reads takes on no bit but 24 when it is written, and that one reads one before as well (R27). -/
theorem getLsbD_held_of_reg14 (s : State) {v : Word} {j : Nat} (h : v.getLsbD j = (s.reg 14).getLsbD j) :
    (held 14 v).getLsbD j = (s.reg 14).getLsbD j := by
  have h14 : (s.reg 14) ||| 0x01000000 = s.reg 14 := held_reg s 14
  change (v ||| 0x01000000).getLsbD j = _
  rw [BitVec.getLsbD_or, h, ← BitVec.getLsbD_or, h14]

/-- Settles O54: entry writes three registers, and of R14 two bits. -/
theorem interruptEntryFrame : Obligations.InterruptEntryFrame := by
  intro s t h
  have hreg := State.reg_of_takeInterrupt h
  obtain ⟨-, rfl⟩ := State.takeInterrupt_eq_next.mp h
  refine ⟨fun j h13 h14 h15 => ?_, fun n h30 h31 => ?_, rfl, rfl, rfl, rfl, rfl⟩
  · rw [hreg j, if_neg h15, if_neg h14, if_neg h13]
  · rw [hreg 14]
    exact getLsbD_held_of_reg14 s (getLsbD_interruptStatus _ _ h30 h31)

/-- Settles O55: entry leaves the old R15 in R13, and the MOVE writes R13 to R15 over its own advance. -/
theorem interruptReturn : Obligations.InterruptReturn := by
  refine fun s => ⟨fun t h => ?_, ?_⟩
  · have h13 : t.reg 13 = s.reg 15 := State.reg_of_takeInterrupt h 13
    exact (t.reg_writeReg_self 15 _).trans h13
  · have hexec := exec_aluTable (cond := ⟨false, .always⟩) 15 13 0 (s.meets_always false)
      (0, .move ⟨false, .always⟩ false false (.reg 15) (.reg 13) (.reg 0), (s.advance 1).reg 13) (.head _)
    rw [hexec, State.reg_advance, if_neg (by decide), State.advance, State.writeReg_writeReg]
    rfl

theorem acceptsInterrupt_maskable (s : State) :
    s.acceptsInterrupt .maskable = ((s.reg 14)[30] && !((s.reg 14)[31] && Config.blockedByI s.polls .maskable)) := by
  have hm : s.flag .m = (s.reg 14)[30] := s.flag_eq_getElem .m
  have hi : s.flag .i = (s.reg 14)[31] := s.flag_eq_getElem .i
  rw [← hm, ← hi]
  rfl

theorem acceptsInterrupt_nonMaskable (s : State) :
    s.acceptsInterrupt .nonMaskable = !(s.flag .i && Config.blockedByI s.polls .nonMaskable) := rfl

/-- Settles O56: M stands in the test of the maskable kind alone, and the free value only beside I. -/
theorem interruptAcceptance : Obligations.InterruptAcceptance := by
  intro s
  refine ⟨fun h => ?_, fun t hi hpolls => ?_, fun hi => ⟨?_, ?_⟩⟩
  · rw [acceptsInterrupt_maskable] at h
    exact Bool.and_elim_left h
  · rw [acceptsInterrupt_nonMaskable, acceptsInterrupt_nonMaskable, hi, hpolls]
  · rw [acceptsInterrupt_maskable, hi, Bool.false_and, Bool.not_false, Bool.and_true]
  · have hflag : s.flag .i = false := (s.flag_eq_getElem .i).trans hi
    rw [acceptsInterrupt_nonMaskable, hflag, Bool.false_and, Bool.not_false]

/-- Entry is stuck only at an address that is not admitted (R51, R204). -/
theorem not_admitted_of_takeInterrupt {s : State} {a : Word} (h : s.takeInterrupt = .fault (.notAdmitted a)) :
    s.admitted a = false := by
  unfold State.takeInterrupt at h
  dsimp only at h
  split at h
  · next b hb =>
    cases h
    simpa using List.find?_some hb
  · cases h

/-- Settles O57: each clause is a case of the step, of the cycle or of entry. -/
theorem interruptStep : Obligations.InterruptStep := by
  refine fun s => ⟨fun hirq => (s.polled_of_never hirq).symm, fun hrun => ?_, fun kind hkind => ?_, fun hmem => ?_,
    fun a ha => not_admitted_of_takeInterrupt ha⟩
  · simp [step, hrun]
  · simp [cycle, Option.filter, hkind]
  · exact ⟨_, State.takeInterrupt_eq_next.mpr ⟨fun a _ => State.admitted_of_fullMemory hmem a, rfl⟩⟩

end Sys2Proof.Machine
end
